-- ==== Sys2Proof/Config.lean ====
section
/-! DEFINITION. What an instance of the core fixes: the parameters of 00_scope.md section 3. -/

namespace Sys2Proof

/-- What the ALU does when the exact result is not a word (00_scope.md R9, 41_arithmetic.md R110). -/
inductive OverflowPolicy where
  /-- Two's-complement wrap-around modulo `2^W`: the normative policy. -/
  | wrap
  /-- The nearest end of the word range. -/
  | saturate
  /-- `raise Overflow(a)` (60_exceptions.md R184). -/
  | fault
  deriving DecidableEq, Repr

/-- The register a conditional jump tests (00_scope.md R10, 90_conflicts.md C1). -/
inductive CondSrc where
  /-- The accumulator: the normative reading. -/
  | a
  /-- The comparison flag: the reading that 90_conflicts.md C1 rejects. -/
  | cmp
  deriving DecidableEq, Repr

/-- The two parameters of which the spec pins one value and names the others as variants. -/
structure Variant where
  overflow : OverflowPolicy
  cond : CondSrc
  deriving DecidableEq, Repr

namespace Config

/-- How many bits a word has beyond 13. The spec gives no number (00_scope.md R6, 92_eei_decisions.md
D1), so this constant has no body: whatever is proved holds for every width. DESIGN CHOICE, safe; log 1. -/
opaque extraBits : Nat

/-- WORD_BITS (W), "constrained to W >= 13" (00_scope.md R6). -/
def wordBits : Nat := 13 + extraBits

/-- MEM_SIZE, the number of memory words (00_scope.md R7). -/
def memSize : Nat := 4000

/-- NUM_INDEX, the number of index registers (00_scope.md R8). -/
def numIndex : Nat := 6

/-- The variant the spec pins: OVERFLOW_POLICY = Wrap (00_scope.md R9) and COND_SRC = A
(00_scope.md R10). Logs 3 and 4. -/
def variant : Variant := { overflow := .wrap, cond := .a }

end Config

end Sys2Proof
end

