-- ==== Sys2Proof/Word.lean ====
section
/-! DEFINITION. Words. "A word is a mathematical integer v with MIN_W <= v <= MAX_W" (00_scope.md
R12): the model's words are of type `Int`, the range is `isWord`, and that every register and cell
lies in it is the invariant of 45_execution_loop.md R160. Log 2. -/

namespace Sys2Proof

/-- MIN_W = -2^(W-1) (00_scope.md R12). -/
def minW : Int := -2 ^ (Config.wordBits - 1)

/-- MAX_W = 2^(W-1) - 1 (00_scope.md R12). -/
def maxW : Int := 2 ^ (Config.wordBits - 1) - 1

/-- `MIN_W <= n <= MAX_W` (00_scope.md R12). The first test says the same of a 13-bit range, which
lies inside the word range of every core (00_scope.md R6); it lets the kernel answer for a small
number although the width has no value. `isWord_iff` proves that it adds nothing. -/
def isWord (n : Int) : Bool :=
  (decide (-4096 ≤ n) && decide (n ≤ 4095)) || (decide (minW ≤ n) && decide (n ≤ maxW))

end Sys2Proof
end

