-- ==== Sys2Proof/Machine/State.lean ====
section
/-! DEFINITION. The state of the core, all of it (10_state.md R29), and reset
(70_reset_and_hazards.md R210). -/

namespace Sys2Proof.Machine

/-- STATUS.run, the execution state of the loop (10_state.md R27). -/
inductive RunState where
  | running | halted | failed
  deriving DecidableEq, Repr

/-- The error kinds and NONE: the values of STATUS.err (10_state.md R27, 60_exceptions.md R180). -/
inductive ErrorKind where
  /-- NONE: no error. -/
  | noError
  /-- A memory or program-counter address outside 0..MEM_SIZE-1. -/
  | outOfRange
  /-- An index-register selector outside 0..NUM_INDEX-1; the host port only. -/
  | indexOutOfRange
  /-- A zero divisor in DIV. -/
  | divideByZero
  /-- A program longer than the memory; load_program only. -/
  | programTooLarge
  /-- An opcode word that selects no instruction. -/
  | unknownOpcode
  /-- An ALU result that is no word; only under OVERFLOW_POLICY = Fault (60_exceptions.md R184). -/
  | overflow
  deriving DecidableEq, Repr

/-- STATUS, the only control and status register (10_state.md R27, R28). -/
structure Status where
  run : RunState
  err : ErrorKind
  info : Int
  deriving DecidableEq, Repr

/-- Memory (20_memory.md R50): the cells that differ from what an unlisted address reads as, by
rising address. A cell is one word, "not bytes" (20_memory.md R57); log 11. -/
abbrev Memory := List (Nat × Int)

/-- The state of the core is exactly A, X, I[0..5], CMP, PC, STATUS and M (10_state.md R29). -/
structure State where
  /-- The accumulator A (10_state.md R21). -/
  a : Int
  /-- The extension register X (10_state.md R22). -/
  x : Int
  /-- The index registers I1..I6; I(k+1) is selector k (10_state.md R23). -/
  index : Vector Int Config.numIndex
  /-- The comparison flag CMP, a whole word (10_state.md R25). -/
  cmp : Int
  /-- The program counter PC, 0..MEM_SIZE (10_state.md R26). -/
  pc : Nat
  /-- STATUS (10_state.md R27). -/
  status : Status
  /-- The memory M (20_memory.md R50). -/
  mem : Memory
  deriving DecidableEq, Repr

/-- A step never stops the machine with a fault: every error the spec names is an error entry that
leads to a next state with STATUS = FAILED (60_exceptions.md R181). So there is no constructor; safe.
Log 10. -/
inductive Fault
  deriving DecidableEq, Repr

/-- The reasons to refuse a step. -/
inductive Refusal where
  /-- An instruction without a meaning, answered only by an arm of `exec` that rejects its
  instruction by name: safe. No arm does so in this model. -/
  | notModelled (mnemonic : String)
  deriving DecidableEq, Repr

/-- Reset, the source's `create()` (70_reset_and_hazards.md R210): every register, the program counter
and every cell 0; STATUS = (RUNNING, NONE, 0). -/
def State.reset : State where
  a := 0
  x := 0
  index := Vector.replicate Config.numIndex 0
  cmp := 0
  pc := 0
  status := { run := .running, err := .noError, info := 0 }
  mem := []

end Sys2Proof.Machine
end

