-- ==== Sys2Proof/Machine/Ops.lean ====
section
/-! DEFINITION. The operations the meanings share: addresses, memory, the named updates of a state,
error entry, the program counter. -/

namespace Sys2Proof.Machine

/-- What a step or a meaning answers. -/
abbrev Result := Host.Outcome State Fault Refusal

/-- STATUS.run's value (10_state.md R27). -/
def RunState.code : RunState → Nat
  | .running => 0
  | .halted => 1
  | .failed => 2

/-- STATUS.err's value (10_state.md R27, 60_exceptions.md R180). Log 8. -/
def ErrorKind.code : ErrorKind → Nat
  | .noError => 0
  | .outOfRange => 1
  | .indexOutOfRange => 2
  | .divideByZero => 3
  | .programTooLarge => 4
  | .unknownOpcode => 5
  | .overflow => 6

/-- `valid(a)`: `0 <= a < MEM_SIZE` (00_scope.md R14, 20_memory.md R54). The second test is written on
natural numbers because Lean evaluates it fastest there; `valid_iff` (Laws/Words.lean) is R14's form. -/
def valid (a : Int) : Bool :=
  decide (0 ≤ a) && Nat.blt a.toNat Config.memSize

/-! ### Memory -/

/-- What an unlisted address reads as: "every slot initialized to zero at creation"
(20_memory.md R51). -/
def Memory.unlisted : Int := 0

/-- The word of one cell. -/
def Memory.read : Memory → Nat → Int
  | [], _ => Memory.unlisted
  | (b, v) :: m, a => if a = b then v else Memory.read m a

/-- Put a cell before others, unless it reads as an unlisted one. -/
def Memory.consCell (a : Nat) (v : Int) (m : Memory) : Memory :=
  if v = Memory.unlisted then m else (a, v) :: m

/-- Write one cell and keep the canonical form. -/
def Memory.write : Memory → Nat → Int → Memory
  | [], a, v => Memory.consCell a v []
  | (b, w) :: m, a, v =>
    if a < b then Memory.consCell a v ((b, w) :: m)
    else if a = b then Memory.consCell a v m
    else (b, w) :: Memory.write m a v

/-- Write words one after the other from address `i` on (70_reset_and_hazards.md R211, "writes words
sequentially"). -/
def Memory.load : Memory → Nat → List Int → Memory
  | m, _, [] => m
  | m, i, v :: rest => Memory.load (Memory.write m i v) (i + 1) rest

/-- Listed cells rise strictly from `lo` on, are cells that exist, and differ from an unlisted one. -/
def Memory.wfFrom : Nat → Memory → Bool
  | _, [] => true
  | lo, (a, v) :: m =>
    decide (lo ≤ a) && decide (a < Config.memSize) && decide (v ≠ Memory.unlisted) && Memory.wfFrom (a + 1) m

/-- The canonical form: equal memories are equal lists. -/
def Memory.wf (m : Memory) : Bool :=
  Memory.wfFrom 0 m

/-- `MemRead(a, 1)` (00_scope.md R14); used only where `valid a`. -/
def memRead (s : State) (a : Int) : Int :=
  Memory.read s.mem a.toNat

/-! ### The named updates of a state -/

/-- `A <- w`. -/
def State.setA (w : Int) (s : State) : State := { s with a := w }

/-- `X <- w`. -/
def State.setX (w : Int) (s : State) : State := { s with x := w }

/-- The index registers, all of them at once. -/
def State.setIndex (f : Vector Int Config.numIndex) (s : State) : State := { s with index := f }

/-- `CMP <- w`. -/
def State.setCmp (w : Int) (s : State) : State := { s with cmp := w }

/-- `PC <- p`. -/
def State.setPc (p : Nat) (s : State) : State := { s with pc := p }

/-- `STATUS <- st`. -/
def State.setStatus (st : Status) (s : State) : State := { s with status := st }

/-- The memory as a whole. -/
def State.setMem (m : Memory) (s : State) : State := { s with mem := m }

/-- `MemWrite(a, 1, w)` (00_scope.md R14); used only where `valid a`. -/
def memWrite (a : Int) (w : Int) (s : State) : State :=
  s.setMem (Memory.write s.mem a.toNat w)

/-! ### Error entry -/

/-- Error entry, `raise E(info)` (00_scope.md R15, 60_exceptions.md R181): STATUS becomes (FAILED, E,
info) "and nothing else"; there is no vector, no saved PC and no mode. Nothing returns from it: only
reset leaves FAILED (60_exceptions.md R186). -/
def raise (kind : ErrorKind) (info : Int) (s : State) : State :=
  s.setStatus { run := .failed, err := kind, info := info }

/-- `STATUS.run <- HALTED` (42_control.md R130). -/
def enterHalted (s : State) : State :=
  s.setStatus { s.status with run := .halted }

/-! ### The program counter -/

/-- The sequential advance by `n` words, without a range check (45_execution_loop.md R152, R153). -/
def advance (n : Nat) (s : State) : State :=
  s.setPc (s.pc + n)

/-- A taken jump: the target is checked, then assigned to PC (42_control.md R131, R134). -/
def jumpTo (a : Int) (s : State) : Result :=
  if valid a then .next (s.setPc a.toNat) else .next (raise .outOfRange a s)

end Sys2Proof.Machine
end

