-- ==== Sys2Proof/Machine/Alu.lean ====
section
/-! DEFINITION. The ALU: `trunc_div` and `alu_result` (00_scope.md R17, 41_arithmetic.md R110). -/

namespace Sys2Proof.Machine

/-- `trunc_div(n, d)`: the quotient rounded toward zero (00_scope.md R17, 41_arithmetic.md R116).
Log 12. -/
def truncDiv (n d : Int) : Int :=
  if decide (n < 0) = decide (d < 0) then ((n.natAbs / d.natAbs : Nat) : Int)
  else -((n.natAbs / d.natAbs : Nat) : Int)

/-- The word of `minW..maxW` that equals `n` modulo `2^W`: "the low W bits of the exact result, read
as signed" (41_arithmetic.md R110). -/
def wrapWord (n : Int) : Int :=
  n.bmod (2 ^ Config.wordBits)

/-- The end of the word range that an out-of-range `n` lies beyond (41_arithmetic.md R110). -/
def saturateWord (n : Int) : Int :=
  if n > maxW then maxW else minW

/-- `alu_result(n)` (41_arithmetic.md R110); `none` is its `raise Overflow`. Log 3. -/
def aluResult (policy : OverflowPolicy) (n : Int) : Option Int :=
  if isWord n then some n
  else
    match policy with
    | .wrap => some (wrapWord n)
    | .saturate => some (saturateWord n)
    | .fault => none

/-- Go on with `alu_result(n)`, or `raise Overflow(a)` (60_exceptions.md R184). -/
def withAluResult (policy : OverflowPolicy) (a : Int) (n : Int) (s : State) (k : Int → Result) :
    Result :=
  match aluResult policy n with
  | some w => k w
  | none => .next (raise .overflow a s)

end Sys2Proof.Machine
end

