-- ==== Sys2Proof/Machine/Flags.lean ====
section
/-! DEFINITION. The comparison flag and the conditions. CMP is the only flag: there is no carry,
overflow, zero or sign flag (41_arithmetic.md R115). -/

namespace Sys2Proof.Machine

/-- The exact difference a COMPARE forms, `A - M[a]`; CMP takes it through `alu_result`
(10_state.md R25, 41_arithmetic.md R114). -/
def compareDifference (s : State) (m : Int) : Int :=
  s.a - m

/-- `cond_reg`: the register the conditional jumps test (00_scope.md R10). -/
def condReg (src : CondSrc) (s : State) : Int :=
  match src with
  | .a => s.a
  | .cmp => s.cmp

/-- The condition of JUMP-ZERO (42_control.md R132). -/
def condZero (src : CondSrc) (s : State) : Bool :=
  decide (condReg src s = 0)

/-- The condition of JUMP-NEG, "signed comparison of the word" (42_control.md R133). -/
def condNegative (src : CondSrc) (s : State) : Bool :=
  decide (condReg src s < 0)

end Sys2Proof.Machine
end

