-- ==== Sys2Proof/Machine/Operands.lean ====
section
/-! DEFINITION. The one operand form, direct addressing (30_encoding.md R72, 40_load_store.md R102):
the operand word is the effective address. -/

namespace Sys2Proof.Machine

/-- Go on only where the data address `a` is valid; otherwise `raise OutOfRange(a)`
(20_memory.md R54). -/
def withDataAddress (a : Int) (s : State) (k : Result) : Result :=
  if valid a then k else .next (raise .outOfRange a s)

/-- The data word M[a], for an instruction that reads its operand cell. -/
def withDataWord (a : Int) (s : State) (k : Int → Result) : Result :=
  withDataAddress a s (k (memRead s a))

end Sys2Proof.Machine
end

