-- ==== Sys2Proof/Machine/Arithmetic.lean ====
section
/-! DEFINITION. ADD, SUB, DIV and COMPARE (41_arithmetic.md), each under every value of
OVERFLOW_POLICY, and the meaning under the normative one. -/

namespace Sys2Proof.Machine

/-- ADD (41_arithmetic.md R111) under an overflow policy. -/
def addUnder (policy : OverflowPolicy) (a : Int) (s : State) : Result :=
  withDataWord a s fun m =>
    withAluResult policy a (s.a + m) s fun w => .next (advance 2 (s.setA w))

/-- SUB (41_arithmetic.md R112) under an overflow policy. -/
def subUnder (policy : OverflowPolicy) (a : Int) (s : State) : Result :=
  withDataWord a s fun m =>
    withAluResult policy a (s.a - m) s fun w => .next (advance 2 (s.setA w))

/-- DIV (41_arithmetic.md R113) under an overflow policy: the divisor is read before it is tested
(60_exceptions.md R185). -/
def divUnder (policy : OverflowPolicy) (a : Int) (s : State) : Result :=
  withDataWord a s fun d =>
    if d = 0 then .next (raise .divideByZero a s)
    else withAluResult policy a (truncDiv s.a d) s fun w => .next (advance 2 (s.setA w))

/-- COMPARE (41_arithmetic.md R114) under an overflow policy. -/
def compareUnder (policy : OverflowPolicy) (a : Int) (s : State) : Result :=
  withDataWord a s fun m =>
    withAluResult policy a (compareDifference s m) s fun w => .next (advance 2 (s.setCmp w))

/-- ADD (41_arithmetic.md R111). -/
def execAdd (a : Int) (s : State) : Result :=
  addUnder Config.variant.overflow a s

/-- SUB (41_arithmetic.md R112). -/
def execSub (a : Int) (s : State) : Result :=
  subUnder Config.variant.overflow a s

/-- DIV (41_arithmetic.md R113). -/
def execDiv (a : Int) (s : State) : Result :=
  divUnder Config.variant.overflow a s

/-- COMPARE (41_arithmetic.md R114). -/
def execCompare (a : Int) (s : State) : Result :=
  compareUnder Config.variant.overflow a s

end Sys2Proof.Machine
end

