-- ==== Sys2Proof/Machine/Control.lean ====
section
/-! DEFINITION. HALT, JUMP, JUMP-ZERO and JUMP-NEG (42_control.md), the conditional jumps under both
values of COND_SRC, and the meaning under the normative one. -/

namespace Sys2Proof.Machine

/-- HALT (42_control.md R130). -/
def execHalt (s : State) : Result :=
  .next (enterHalted (advance 1 s))

/-- JUMP (42_control.md R131). -/
def execJump (a : Int) (s : State) : Result :=
  jumpTo a s

/-- JUMP-ZERO (42_control.md R132) with the register it tests given. -/
def jumpZeroUnder (src : CondSrc) (a : Int) (s : State) : Result :=
  if condZero src s then jumpTo a s else .next (advance 2 s)

/-- JUMP-NEG (42_control.md R133) with the register it tests given. -/
def jumpNegUnder (src : CondSrc) (a : Int) (s : State) : Result :=
  if condNegative src s then jumpTo a s else .next (advance 2 s)

/-- JUMP-ZERO (42_control.md R132). -/
def execJumpZero (a : Int) (s : State) : Result :=
  jumpZeroUnder Config.variant.cond a s

/-- JUMP-NEG (42_control.md R133). -/
def execJumpNeg (a : Int) (s : State) : Result :=
  jumpNegUnder Config.variant.cond a s

end Sys2Proof.Machine
end

