-- ==== Sys2Proof/Machine/LoadStore.lean ====
section
/-! DEFINITION. LOAD-A and STORE-A (40_load_store.md). -/

namespace Sys2Proof.Machine

/-- LOAD-A (40_load_store.md R100). -/
def execLoadA (a : Int) (s : State) : Result :=
  withDataWord a s fun m => .next (advance 2 (s.setA m))

/-- STORE-A (40_load_store.md R101). -/
def execStoreA (a : Int) (s : State) : Result :=
  withDataAddress a s (.next (advance 2 (memWrite a s.a s)))

end Sys2Proof.Machine
end

