-- ==== Sys2Proof/Syntax.lean ====
section
/-! DEFINITION. The ten instructions, one constructor per row of spec/opcode_table.json
(30_encoding.md R73, R74). -/

namespace Sys2Proof

/-- An instruction. `a` is the operand word, used verbatim (30_encoding.md R72); HALT has none
(90_conflicts.md C5). -/
inductive Instr where
  /-- HALT, 42_control.md R130. -/
  | halt
  /-- LOAD-A, 40_load_store.md R100. -/
  | loadA (a : Int)
  /-- STORE-A, 40_load_store.md R101. -/
  | storeA (a : Int)
  /-- ADD, 41_arithmetic.md R111. -/
  | add (a : Int)
  /-- SUB, 41_arithmetic.md R112. -/
  | sub (a : Int)
  /-- DIV, 41_arithmetic.md R113. -/
  | div (a : Int)
  /-- JUMP, 42_control.md R131. -/
  | jump (a : Int)
  /-- JUMP-ZERO, 42_control.md R132. -/
  | jumpZero (a : Int)
  /-- JUMP-NEG, 42_control.md R133. -/
  | jumpNeg (a : Int)
  /-- COMPARE, 41_arithmetic.md R114. -/
  | compare (a : Int)
  deriving DecidableEq, Repr

end Sys2Proof
end

