-- ==== Sys2Proof/Machine/Dispatch.lean ====
section
/-! DEFINITION. One arm per instruction (30_encoding.md R73). -/

namespace Sys2Proof.Machine

def exec (i : Instr) (s : State) : Host.Outcome State Fault Refusal :=
  match i with
  | .halt => Sys2Proof.Machine.execHalt s
  | .loadA a => Sys2Proof.Machine.execLoadA a s
  | .storeA a => Sys2Proof.Machine.execStoreA a s
  | .add a => Sys2Proof.Machine.execAdd a s
  | .sub a => Sys2Proof.Machine.execSub a s
  | .div a => Sys2Proof.Machine.execDiv a s
  | .jump a => Sys2Proof.Machine.execJump a s
  | .jumpZero a => Sys2Proof.Machine.execJumpZero a s
  | .jumpNeg a => Sys2Proof.Machine.execJumpNeg a s
  | .compare a => Sys2Proof.Machine.execCompare a s

end Sys2Proof.Machine
end

