-- ==== Sys2Proof/WellFormed.lean ====
section
/-! DEFINITION. When an instruction is well-formed: its operand is a word (30_encoding.md R72,
"`a` may be any word, negative or >= MEM_SIZE included"). -/

namespace Sys2Proof

/-- The operand word, for the instructions of format F1 (30_encoding.md R70). -/
def Instr.operand? : Instr → Option Int
  | .halt => none
  | .loadA a => some a
  | .storeA a => some a
  | .add a => some a
  | .sub a => some a
  | .div a => some a
  | .jump a => some a
  | .jumpZero a => some a
  | .jumpNeg a => some a
  | .compare a => some a

/-- The one check: an operand, where there is one, is a word. -/
def Instr.wf (i : Instr) : Bool :=
  i.operand?.all isWord

end Sys2Proof
end

