-- ==== Sys2Proof/Decode.lean ====
section
/-! DEFINITION. The decoder and the encoder (30_encoding.md). -/

namespace Sys2Proof

/-- The closed enumeration of the ten opcodes (30_encoding.md R74). -/
inductive Opcode where
  | halt | loadA | storeA | add | sub | div | jump | jumpZero | jumpNeg | compare
  deriving DecidableEq, Repr

/-- The opcode map, by the whole value of the opcode word (30_encoding.md R71, R73); `none` is the
`Unknown` of R74. -/
def opcodeOf (v : Int) : Option Opcode :=
  match v with
  | 0 => some .halt
  | 1 => some .loadA
  | 2 => some .storeA
  | 3 => some .add
  | 4 => some .sub
  | 5 => some .div
  | 6 => some .jump
  | 7 => some .jumpZero
  | 8 => some .jumpNeg
  | 9 => some .compare
  | _ => none

/-- What the decoder reads from a list of words: an instruction with the words after it, or a
rejection by name. -/
inductive Decoded where
  /-- An instruction and the words that follow it. -/
  | instr (i : Instr) (rest : List Int)
  /-- `Unknown(v)` (30_encoding.md R74): the opcode word selects no instruction. -/
  | unknownOpcode (v : Int)
  /-- There is no opcode word to read. -/
  | noOpcodeWord
  /-- The opcode has format F1 and there is no operand word to read. -/
  | noOperandWord
  deriving DecidableEq, Repr

/-- Format F1 (30_encoding.md R70): "operand is always the word immediately following the opcode
word". -/
def withOperandWord (mk : Int → Instr) : List Int → Decoded
  | [] => .noOperandWord
  | a :: rest => .instr (mk a) rest

/-- The decoder, total on any list of words. The opcode is decided before the operand word is looked
for (30_encoding.md R76, 90_conflicts.md C6; log 7). -/
def decode : List Int → Decoded
  | [] => .noOpcodeWord
  | v :: rest =>
    match opcodeOf v with
    | none => .unknownOpcode v
    | some .halt => .instr .halt rest
    | some .loadA => withOperandWord .loadA rest
    | some .storeA => withOperandWord .storeA rest
    | some .add => withOperandWord .add rest
    | some .sub => withOperandWord .sub rest
    | some .div => withOperandWord .div rest
    | some .jump => withOperandWord .jump rest
    | some .jumpZero => withOperandWord .jumpZero rest
    | some .jumpNeg => withOperandWord .jumpNeg rest
    | some .compare => withOperandWord .compare rest

/-- Decode a program image, "an ordered sequence of signed integers (opcode/operand pairs
interleaved, operand immediately following its opcode)" (30_encoding.md R74, R78), read as
instructions from its first word to its last; `none` where a word selects no instruction or an
operand is missing. -/
def decodeImage : List Int → Option (List Instr)
  | [] => some []
  | v :: rest =>
    match opcodeOf v, rest with
    | none, _ => none
    | some .halt, rest => (decodeImage rest).map (.halt :: ·)
    | some .loadA, a :: rest => (decodeImage rest).map (.loadA a :: ·)
    | some .storeA, a :: rest => (decodeImage rest).map (.storeA a :: ·)
    | some .add, a :: rest => (decodeImage rest).map (.add a :: ·)
    | some .sub, a :: rest => (decodeImage rest).map (.sub a :: ·)
    | some .div, a :: rest => (decodeImage rest).map (.div a :: ·)
    | some .jump, a :: rest => (decodeImage rest).map (.jump a :: ·)
    | some .jumpZero, a :: rest => (decodeImage rest).map (.jumpZero a :: ·)
    | some .jumpNeg, a :: rest => (decodeImage rest).map (.jumpNeg a :: ·)
    | some .compare, a :: rest => (decodeImage rest).map (.compare a :: ·)
    | some _, [] => none

/-- The `W`-bit two's-complement pattern `b` (a number of which only the low `W` bits count) read as
a signed word (00_scope.md R12). The first branch is the same word wherever it applies; it lets the
kernel read a small pattern although the width has no value. -/
def wordOfBits (b : Nat) : Int :=
  if isWord b then b else (b : Int).bmod (2 ^ Config.wordBits)

/-- The bits of a number from bit `W` on. A number that is itself a word has none. -/
def bitsAfterFirstWord (w : Nat) : Nat :=
  if isWord w then 0 else w / 2 ^ Config.wordBits

/-- The two words of an instruction whose bits, numbered as spec/opcode_table.json numbers them, are
`w`: the opcode word is bits `W-1..0` and the operand word bits `2W-1..W`. Log 15. -/
def tableWords (w : Nat) : List Int :=
  [wordOfBits w, wordOfBits (bitsAfterFirstWord w)]

/-- The instruction the decoder reads from an instruction whose bits are `w`. Every bit of `w` from
`nbits` on is 0, so `nbits` adds nothing to `w`. Log 15. -/
def decodeTableWord (_nbits w : Nat) : Option Instr :=
  match decode (tableWords w) with
  | .instr i _ => some i
  | .unknownOpcode _ => none
  | .noOpcodeWord => none
  | .noOperandWord => none

/-- The words of an instruction (30_encoding.md R70, R73). -/
def encode : Instr → List Int
  | .halt => [0]
  | .loadA a => [1, a]
  | .storeA a => [2, a]
  | .add a => [3, a]
  | .sub a => [4, a]
  | .div a => [5, a]
  | .jump a => [6, a]
  | .jumpZero a => [7, a]
  | .jumpNeg a => [8, a]
  | .compare a => [9, a]

/-- A word's `W`-bit two's-complement pattern (00_scope.md R12). -/
def bitsOfWord (v : Int) : Nat :=
  (v % 2 ^ Config.wordBits).toNat

/-- Words laid out one after the other, the first in the lowest `W` bits. -/
def bitsOfWords : List Int → Nat
  | [] => 0
  | v :: rest => bitsOfWord v + 2 ^ Config.wordBits * bitsOfWords rest

/-- An instruction's bits as spec/opcode_table.json numbers them. -/
def encodeTableWord (i : Instr) : Nat :=
  bitsOfWords (encode i)

end Sys2Proof
end

