-- ==== Sys2Proof/Machine/Sequencer.lean ====
section
/-! DEFINITION. The fetch and the step's own checks (45_execution_loop.md R150, R151), the step's
response (R154), and the place the next instruction is fetched from. -/

namespace Sys2Proof.Machine

/-- The words the sequencer can fetch: M[p] and M[p+1], as far as p and p+1 are valid addresses
(45_execution_loop.md R150). -/
def fetchWords (s : State) : List Int :=
  if valid s.pc then
    memRead s s.pc :: (if valid (s.pc + 1) then [memRead s (s.pc + 1)] else [])
  else []

/-- One step (45_execution_loop.md R150) around the meanings `execute`: HALTED and FAILED are terminal
(R154), then the checks in the order of R151, then the instruction's own meaning. -/
def sequencerStep (execute : Instr → State → Result) (s : State) : Result :=
  match s.status.run with
  | .halted => .next s
  | .failed => .next s
  | .running =>
    match decode (fetchWords s) with
    | .instr i _ => execute i s
    | .unknownOpcode v => .next (raise .unknownOpcode v s)
    | .noOpcodeWord => .next (raise .outOfRange s.pc s)
    | .noOperandWord => .next (raise .outOfRange (s.pc + 1) s)

/-- A step's response to the host (45_execution_loop.md R154). -/
inductive Response where
  /-- Continue. -/
  | cont
  /-- Halted. -/
  | halted
  /-- Error(kind, info). -/
  | error (kind : ErrorKind) (info : Int)
  deriving DecidableEq, Repr

/-- The response of a step that ends in state `t`: what STATUS says there. An instruction other than
HALT that completes leaves RUNNING, HALT leaves HALTED, an error leaves FAILED, and a step started in
HALTED or FAILED changes nothing (45_execution_loop.md R154, 60_exceptions.md R181). -/
def response (t : State) : Response :=
  match t.status.run with
  | .running => .cont
  | .halted => .halted
  | .failed => .error t.status.err t.status.info

/-- Put words into the cells from address `a` on, those that exist. -/
def placeWords : Int → List Int → State → State
  | _, [], s => s
  | a, w :: rest, s => placeWords (a + 1) rest (if valid a then memWrite a w s else s)

end Sys2Proof.Machine
end

