-- ==== Sys2Proof/Machine/Step.lean ====
section
/-! DEFINITION. The step (45_execution_loop.md R150), and an instruction placed where the step fetches. -/

namespace Sys2Proof.Machine

/-- One step of the core. -/
def step (s : State) : Host.Outcome State Fault Refusal :=
  sequencerStep exec s

/-- The state with the instruction whose bits are `w` at the address PC holds. Log 15. -/
def State.withFetchWord (s : State) (_nbits w : Nat) : State :=
  placeWords s.pc (tableWords w) s

end Sys2Proof.Machine
end

