-- ==== Sys2Proof/Machine/HostPort.lean ====
section
/-! DEFINITION. The host's accessors and program loading (10_state.md section 5, 20_memory.md R55,
70_reset_and_hazards.md R211, R212). An accessor that fails returns its error kind and leaves all
state unchanged, STATUS included (10_state.md R33). -/

namespace Sys2Proof.Machine

/-- The registers of the register port (10_state.md R31); a selector may be any integer. -/
inductive RegName where
  | a
  | x
  | index (k : Int)
  deriving DecidableEq, Repr

/-- `0 <= k < NUM_INDEX` (10_state.md R32). -/
def validSelector (k : Int) : Bool :=
  decide (0 ≤ k) && decide (k < Config.numIndex)

/-- I[k], for a valid selector. -/
def readIndex (s : State) (k : Int) : Int :=
  s.index[k.toNat]?.getD 0

/-- `I[k] <- v`, for a valid selector. -/
def writeIndex (k : Int) (v : Int) (s : State) : State :=
  s.setIndex (s.index.setIfInBounds k.toNat v)

/-- `read_register` (10_state.md R31, R32). -/
def readRegister (r : RegName) (s : State) : Except ErrorKind Int :=
  match r with
  | .a => .ok s.a
  | .x => .ok s.x
  | .index k => if validSelector k then .ok (readIndex s k) else .error .indexOutOfRange

/-- `write_register` (10_state.md R31, R32); allowed in every value of STATUS.run. -/
def writeRegister (r : RegName) (v : Int) (s : State) : Except ErrorKind State :=
  match r with
  | .a => .ok (s.setA v)
  | .x => .ok (s.setX v)
  | .index k => if validSelector k then .ok (writeIndex k v s) else .error .indexOutOfRange

/-- `read(a)` (20_memory.md R55). -/
def hostRead (a : Int) (s : State) : Except ErrorKind Int :=
  if valid a then .ok (memRead s a) else .error .outOfRange

/-- `write(a, v)` (20_memory.md R55). -/
def hostWrite (a : Int) (v : Int) (s : State) : Except ErrorKind State :=
  if valid a then .ok (memWrite a v s) else .error .outOfRange

/-- `set_program_counter(a)` (10_state.md R34): it does not restart a stopped core. -/
def setProgramCounter (a : Int) (s : State) : Except ErrorKind State :=
  if valid a then .ok (s.setPc a.toNat) else .error .outOfRange

/-- `load_program(words)` (70_reset_and_hazards.md R211, R212): a program that is too large writes no
cell. Log 14. -/
def loadProgram (words : List Int) (s : State) : Except ErrorKind State :=
  if words.length ≤ Config.memSize then .ok (s.setMem (Memory.load s.mem 0 words))
  else .error .programTooLarge

end Sys2Proof.Machine
end

