-- ==== Sys2Proof/Machine/Interface.lean ====
section
/-! DEFINITION. The core's interface: the host's operations as one closed list
(45_execution_loop.md R161), and the run (R156). -/

namespace Sys2Proof.Machine

/-- One atomic operation of the host (45_execution_loop.md R161, 10_state.md R35). `run()` is no
operation of its own here: it is repeated `step` (R156), see `runFor` and `RunEnds`. -/
inductive HostOp where
  | reset
  | loadProgram (words : List Int)
  | step
  | read (a : Int)
  | write (a : Int) (v : Int)
  | readRegister (r : RegName)
  | writeRegister (r : RegName) (v : Int)
  | setProgramCounter (a : Int)
  | inspectCmp
  | inspectPc
  | inspectStatus
  deriving DecidableEq, Repr

/-- What an operation returns to the host. -/
inductive HostResult where
  | ok
  | word (w : Int)
  | location (pc : Nat)
  | status (st : Status)
  | response (r : Response)
  | error (kind : ErrorKind)
  deriving DecidableEq, Repr

/-- What an operation answers: its result with the state after it. A step that stopped with a fault
or a refusal would pass that on. -/
abbrev HostOutcome := Host.Outcome (HostResult × State) Fault Refusal

/-- A read: its value and the same state (10_state.md R30, "pure reads with no side effects"). -/
def returned (s : State) : Except ErrorKind Int → HostOutcome
  | .ok w => .next (.word w, s)
  | .error k => .next (.error k, s)

/-- A write: the new state, or the error kind and the same state (10_state.md R33). -/
def committed (s : State) : Except ErrorKind State → HostOutcome
  | .ok t => .next (.ok, t)
  | .error k => .next (.error k, s)

/-- A step with its response (45_execution_loop.md R154). -/
def responded : Result → HostOutcome
  | .next t => .next (.response (response t), t)
  | .fault r => .fault r
  | .refused r => .refused r

/-- The host performs one operation (45_execution_loop.md R161). -/
def perform (op : HostOp) (s : State) : HostOutcome :=
  match op with
  | .reset => .next (.ok, State.reset)
  | .loadProgram words => committed s (loadProgram words s)
  | .step => responded (step s)
  | .read a => returned s (hostRead a s)
  | .write a v => committed s (hostWrite a v s)
  | .readRegister r => returned s (readRegister r s)
  | .writeRegister r v => committed s (writeRegister r v s)
  | .setProgramCounter a => committed s (setProgramCounter a s)
  | .inspectCmp => .next (.word s.cmp, s)
  | .inspectPc => .next (.location s.pc, s)
  | .inspectStatus => .next (.status s.status, s)

/-- The words a host hands over are words (10_state.md R31, 20_memory.md R55,
70_reset_and_hazards.md R211). Log 18. -/
def HostOp.wf : HostOp → Bool
  | .reset => true
  | .loadProgram words => words.all isWord
  | .step => true
  | .read _ => true
  | .write _ v => isWord v
  | .readRegister _ => true
  | .writeRegister _ v => isWord v
  | .setProgramCounter _ => true
  | .inspectCmp => true
  | .inspectPc => true
  | .inspectStatus => true

/-- `run()` (45_execution_loop.md R156) under a step budget, which "a caller ... must impose
externally" (R157): the first response that is not Continue with the state after that step, or `none`
when the budget is spent first. -/
def runFor : Nat → State → Option (Response × State)
  | 0, _ => none
  | k + 1, s =>
    match step s with
    | .next t =>
      match response t with
      | .cont => runFor k t
      | .halted => some (.halted, t)
      | .error kind info => some (.error kind info, t)
    | .fault _ => none
    | .refused _ => none

/-- A run from `s` ends with response `r` in state `t` (45_execution_loop.md R158). -/
def RunEnds (s : State) (r : Response) (t : State) : Prop :=
  ∃ k, runFor k s = some (r, t)

end Sys2Proof.Machine
end

