-- ==== Sys2Proof/Machine/Variants.lean ====
section
/-! DEFINITION. The machine with OVERFLOW_POLICY and COND_SRC as arguments (00_scope.md R9, R10), so
that a claim can be stated under every reading. `exec_eq_execUnder` and `step_eq_stepUnder`
(Laws/Step.lean) say that `exec` and `step` are its instance at `Config.variant`. -/

namespace Sys2Proof.Machine

/-- An instruction's meaning under a variant. -/
def execUnder (v : Variant) (i : Instr) (s : State) : Result :=
  match i with
  | .halt => execHalt s
  | .loadA a => execLoadA a s
  | .storeA a => execStoreA a s
  | .add a => addUnder v.overflow a s
  | .sub a => subUnder v.overflow a s
  | .div a => divUnder v.overflow a s
  | .jump a => execJump a s
  | .jumpZero a => jumpZeroUnder v.cond a s
  | .jumpNeg a => jumpNegUnder v.cond a s
  | .compare a => compareUnder v.overflow a s

/-- One step under a variant. -/
def stepUnder (v : Variant) (s : State) : Result :=
  sequencerStep (execUnder v) s

end Sys2Proof.Machine
end

