-- ==== Sys2Proof/Safety.lean ====
section
/-! DEFINITION. What a good state and a safe run are, in the terms the statements use. -/

namespace Sys2Proof.Machine

/-- Every register and every memory cell holds a word (45_execution_loop.md R160). -/
def State.HoldsWords (s : State) : Prop :=
  isWord s.a = true ∧ isWord s.x = true ∧ (∀ k : Fin Config.numIndex, isWord s.index[k] = true) ∧
    isWord s.cmp = true ∧ ∀ a : Nat, isWord (Memory.read s.mem a) = true

/-- STATUS.err is NONE and STATUS.info is 0 unless STATUS.run is FAILED (10_state.md R27,
45_execution_loop.md R160). -/
def State.StatusClean (s : State) : Prop :=
  s.status.run ≠ .failed → s.status.err = .noError ∧ s.status.info = 0

/-- The invariant of 45_execution_loop.md R160, with the canonical form of the memory. -/
structure State.Inv (s : State) : Prop where
  pc_le : s.pc ≤ Config.memSize
  words : s.HoldsWords
  status : s.StatusClean
  mem_wf : Memory.wf s.mem = true

/-- The words of `i` stand at PC, in cells that exist (30_encoding.md R70). -/
def InstrAtPc (i : Instr) (s : State) : Prop :=
  ∀ (k : Nat) (h : k < (encode i).length),
    valid ((s.pc : Int) + k) = true ∧ memRead s ((s.pc : Int) + k) = (encode i)[k]

/-- `w` is the word of MIN_W..MAX_W that equals the exact result `n` modulo `2^W`: the value Wrap gives
(41_arithmetic.md R110). There is one such word for every `n`. -/
def IsWrapOf (w n : Int) : Prop :=
  (minW ≤ w ∧ w ≤ maxW) ∧ (2 ^ Config.wordBits : Int) ∣ w - n

/-- The state after error entry (60_exceptions.md R181): STATUS is (FAILED, kind, info) and nothing else
differs from `s`. -/
def State.failedWith (s : State) (kind : ErrorKind) (info : Int) : State :=
  { s with status := { run := .failed, err := kind, info := info } }

/-- `k` steps lead from `s` to `t` and every one of them answers Continue (45_execution_loop.md R156). -/
def ContinuesTo : Nat → State → State → Prop
  | 0, s, t => s = t
  | k + 1, s, t => ∃ u, step s = .next u ∧ response u = .cont ∧ ContinuesTo k u t

end Sys2Proof.Machine
end

