-- ==== Sys2Proof/Certificates/Slice0/Obligations.lean ====
section
/-! DEFINITION. The statements for the provers. OBLIGATIONS.json gives each its rule of spec/. -/

open Sys2Proof Sys2Proof.Machine

/-! ### Reset -/

/-- 20_memory.md R51: every memory cell is 0 after reset. -/
def Obligations.ResetClearsEveryMemoryCell : Prop :=
  ∀ a : Int, valid a = true → memRead State.reset a = 0

/-- The reset table of 70_reset_and_hazards.md R210. Its STATUS.run row is the spec's own choice (D19). -/
def Obligations.ResetLeavesTheStateOfTheResetTable : Prop :=
  State.reset.a = 0 ∧ State.reset.x = 0 ∧ (∀ k : Fin Config.numIndex, State.reset.index[k] = 0) ∧
    State.reset.cmp = 0 ∧ State.reset.pc = 0 ∧
    State.reset.status = { run := .running, err := .noError, info := 0 } ∧
    (∀ a : Int, valid a = true → memRead State.reset a = 0) ∧
    ∀ s : State, perform .reset s = .next (.ok, State.reset)

/-- The invariant of 45_execution_loop.md R160 (which the spec marks as derived) holds after reset. -/
def Obligations.ResetSatisfiesTheInvariant : Prop :=
  State.reset.Inv

/-! ### Encoding -/

/-- Words written out from the opcode map of 30_encoding.md R73. -/
def Obligations.WrittenOutWordsDecode : Prop :=
  decode [0, 7] = .instr .halt [7] ∧ decode [1, 10] = .instr (.loadA 10) [] ∧
    decode [2, 12] = .instr (.storeA 12) [] ∧ decode [5, -3] = .instr (.div (-3)) [] ∧
    decode [8, 4000] = .instr (.jumpNeg 4000) [] ∧ decode [9, 11, 0] = .instr (.compare 11) [0] ∧
    decode [42, 1] = .unknownOpcode 42 ∧ decode [-1] = .unknownOpcode (-1) ∧
    decode [6] = .noOperandWord

/-- 30_encoding.md R74: `decode(v)` is the instruction of opcode v when 0 <= v <= 9, and `Unknown(v)`
otherwise. The instruction of each opcode is the one of the map of R73. -/
def Obligations.DecoderIsTotalOnOpcodeWords : Prop :=
  ∀ (v a : Int) (rest : List Int),
    (v = 0 → decode (v :: rest) = .instr .halt rest) ∧
    (v = 1 → decode (v :: a :: rest) = .instr (.loadA a) rest) ∧
    (v = 2 → decode (v :: a :: rest) = .instr (.storeA a) rest) ∧
    (v = 3 → decode (v :: a :: rest) = .instr (.add a) rest) ∧
    (v = 4 → decode (v :: a :: rest) = .instr (.sub a) rest) ∧
    (v = 5 → decode (v :: a :: rest) = .instr (.div a) rest) ∧
    (v = 6 → decode (v :: a :: rest) = .instr (.jump a) rest) ∧
    (v = 7 → decode (v :: a :: rest) = .instr (.jumpZero a) rest) ∧
    (v = 8 → decode (v :: a :: rest) = .instr (.jumpNeg a) rest) ∧
    (v = 9 → decode (v :: a :: rest) = .instr (.compare a) rest) ∧
    (¬(0 ≤ v ∧ v ≤ 9) → decode (v :: rest) = .unknownOpcode v)

/-- Decode and encode agree, with every operand the encoding admits: on words, and on the bits that
spec/opcode_table.json numbers, where the operand is read as a signed word of any width. The layout of
the words in one number is the model's (log 15). -/
def Obligations.DecodeOfEncodeIsTheInstruction : Prop :=
  ∀ i : Instr, i.wf = true →
    (∀ rest : List Int, decode (encode i ++ rest) = .instr i rest) ∧
      ∀ nbits : Nat, decodeTableWord nbits (encodeTableWord i) = some i

/-- A list of words decodes, from its first word to its last, to exactly the list of instructions whose
words it is (30_encoding.md R74, R77, R78): no word is dropped and none is read twice. -/
def Obligations.ImagesDecodeToExactlyTheirInstructions : Prop :=
  ∀ (words : List Int) (program : List Instr),
    decodeImage words = some program ↔ words = program.flatMap encode

/-- An instruction placed where the step fetches is the one that runs, and no cell but the two it is
placed in changes. How the bits are laid out is the model's (log 15). -/
def Obligations.PlacedInstructionIsTheOneThatRuns : Prop :=
  ∀ (s : State) (i : Instr) (nbits : Nat),
    Memory.wf s.mem = true → i.wf = true → s.pc + 1 < Config.memSize →
      let t := s.withFetchWord nbits (encodeTableWord i)
      InstrAtPc i t ∧ t = { s with mem := t.mem } ∧
        (∀ b : Nat, b ≠ s.pc → b ≠ s.pc + 1 → Memory.read t.mem b = Memory.read s.mem b) ∧
        (s.status.run = .running → step t = exec i t)

/-! ### The step -/

/-- Where the words at PC are those of an instruction, and where the fetched words decode to one, a step
of a RUNNING core is that instruction's meaning at this state, nothing before it and nothing after it
(45_execution_loop.md R150). -/
def Obligations.StepRunsTheDecodedInstruction : Prop :=
  ∀ (s : State) (i : Instr), s.status.run = .running →
    (InstrAtPc i s → step s = exec i s) ∧
      ∀ rest : List Int, decode (fetchWords s) = .instr i rest → step s = exec i s

/-- The step's own checks in their order (45_execution_loop.md R151). The order of the second and the
third is the spec's own choice (D6), and so are the info values (D8). -/
def Obligations.StepChecksInTheOrderOfTheSpec : Prop :=
  ∀ s : State, s.status.run = .running →
    (Config.memSize ≤ s.pc → step s = .next (s.failedWith .outOfRange s.pc)) ∧
    (valid s.pc = true → ¬(0 ≤ memRead s s.pc ∧ memRead s s.pc ≤ 9) →
      step s = .next (s.failedWith .unknownOpcode (memRead s s.pc))) ∧
    (s.pc + 1 = Config.memSize → 1 ≤ memRead s s.pc → memRead s s.pc ≤ 9 →
      step s = .next (s.failedWith .outOfRange (s.pc + 1)))

/-- HALTED and FAILED are terminal for the step, which returns the latched response and changes no state
(45_execution_loop.md R154; the spec's own choice, D9). -/
def Obligations.StoppedCoreRepeatsItsResponse : Prop :=
  ∀ s : State,
    (s.status.run = .halted → step s = .next s ∧ perform .step s = .next (.response .halted, s)) ∧
    (s.status.run = .failed → step s = .next s ∧
      perform .step s = .next (.response (.error s.status.err s.status.info), s))

/-- A step of a RUNNING core answers Halted exactly when it ran a HALT, Continue exactly when another
instruction completed, and an Error otherwise (45_execution_loop.md R154). That STATUS shows which is the
spec's own choice (D9). -/
def Obligations.ResponseTellsHowTheStepEnded : Prop :=
  ∀ (s t : State), s.status.run = .running → step s = .next t →
    (response t = .halted ↔ ∃ rest, decode (fetchWords s) = .instr .halt rest) ∧
    (response t = .cont → t.status = s.status ∧
      ∃ i rest, i ≠ .halt ∧ decode (fetchWords s) = .instr i rest) ∧
    (∀ kind info, response t = .error kind info → t = s.failedWith kind info)

/-- No step and no host operation stops with a fault or a refusal of the model, under any variant: every
one of them answers a next state (log 10). -/
def Obligations.EveryOperationAnswersANextState : Prop :=
  (∀ (v : Variant) (s : State), ∃ t, stepUnder v s = .next t) ∧
    (∀ s : State, ∃ t, step s = .next t) ∧
    ∀ (op : HostOp) (s : State), ∃ r t, perform op s = .next (r, t)

/-- 45_execution_loop.md R155: a step that raises writes only STATUS; PC still holds the address of the
failing instruction's opcode word. -/
def Obligations.FailingStepWritesOnlyStatus : Prop :=
  ∀ s t : State, s.status.run = .running → step s = .next t → t.status.run = .failed →
    t.a = s.a ∧ t.x = s.x ∧ t.index = s.index ∧ t.cmp = s.cmp ∧ t.pc = s.pc ∧
      (∀ b : Nat, Memory.read t.mem b = Memory.read s.mem b) ∧ t = { s with status := t.status }

/-- Each error a step latches has one of the causes of 60_exceptions.md R182, under every variant, and the
info is the address or the opcode word of that cause: PC where there is no opcode word, PC + 1 where there
is no operand word, the operand of the instruction at PC where its access or its taken jump is out of
range, the opcode word, the divisor's address, and the data address of an ALU instruction whose exact
result is no word. Kinds and info values are the spec's own choices (D7, D8, log 8), and so are the
overflow policies (D3, log 3) and the register a conditional jump tests (D4, log 4). -/
def Obligations.LatchedErrorNamesItsCause : Prop :=
  (∀ (v : Variant) (s t : State) (kind : ErrorKind) (info : Int), s.status.run = .running →
    stepUnder v s = .next t → t.status = { run := .failed, err := kind, info := info } →
    (kind = .outOfRange ∧ valid info = false ∧
      ((Config.memSize ≤ s.pc ∧ info = s.pc) ∨
        (s.pc + 1 = Config.memSize ∧ 1 ≤ memRead s s.pc ∧ memRead s s.pc ≤ 9 ∧ info = s.pc + 1) ∨
        ∃ i, InstrAtPc i s ∧ i.operand? = some info ∧
          (i = .jumpZero info → condReg v.cond s = 0) ∧ (i = .jumpNeg info → condReg v.cond s < 0))) ∨
    (kind = .unknownOpcode ∧ valid s.pc = true ∧ info = memRead s s.pc ∧ ¬(0 ≤ info ∧ info ≤ 9)) ∨
    (kind = .divideByZero ∧ InstrAtPc (.div info) s ∧ valid info = true ∧ memRead s info = 0) ∨
    (kind = .overflow ∧ v.overflow = .fault ∧ valid info = true ∧ ∃ n : Int, isWord n = false ∧
      ((InstrAtPc (.add info) s ∧ n = s.a + memRead s info) ∨
        ((InstrAtPc (.sub info) s ∨ InstrAtPc (.compare info) s) ∧ n = s.a - memRead s info) ∨
        (InstrAtPc (.div info) s ∧ memRead s info ≠ 0 ∧ n = Int.tdiv s.a (memRead s info))))) ∧
    (∀ s : State, step s = stepUnder Config.variant s) ∧
    Config.variant = { overflow := .wrap, cond := .a }

/-- The numeric codes of STATUS.run and STATUS.err (10_state.md R27, 60_exceptions.md R180), the spec's
own choice (D7). -/
def Obligations.StatusCodesAreThoseOfTheSpec : Prop :=
  RunState.code .running = 0 ∧ RunState.code .halted = 1 ∧ RunState.code .failed = 2 ∧
    ErrorKind.code .noError = 0 ∧ ErrorKind.code .outOfRange = 1 ∧
    ErrorKind.code .indexOutOfRange = 2 ∧ ErrorKind.code .divideByZero = 3 ∧
    ErrorKind.code .programTooLarge = 4 ∧ ErrorKind.code .unknownOpcode = 5 ∧
    ErrorKind.code .overflow = 6

/-- 45_execution_loop.md R152: the next PC of a step that does not raise, under either reading of the
conditional jumps (the condition is that of 42_control.md R132 and R133), and for `step` itself. -/
def Obligations.NextPcIsThatOfTheTable : Prop :=
  (∀ (v : Variant) (s t : State) (i : Instr), s.status.run = .running → InstrAtPc i s →
    stepUnder v s = .next t → t.status.run ≠ .failed →
      (t.pc : Int) =
        match i with
        | .halt => s.pc + 1
        | .jump a => a
        | .jumpZero a => if condReg v.cond s = 0 then a else s.pc + 2
        | .jumpNeg a => if condReg v.cond s < 0 then a else s.pc + 2
        | .loadA _ => s.pc + 2
        | .storeA _ => s.pc + 2
        | .add _ => s.pc + 2
        | .sub _ => s.pc + 2
        | .div _ => s.pc + 2
        | .compare _ => s.pc + 2) ∧
    ∀ s : State, step s = stepUnder Config.variant s

/-- PC becomes MEM_SIZE only by the sequential advance past an instruction that ends at the last word of
memory, never by a JUMP and never by a conditional jump whose condition is true, and the next step then
fails at its fetch (10_state.md R26, 45_execution_loop.md R153): the spec's own choice (D5, log 6). That the
condition is on A is the spec's resolution of 90_conflicts.md C1 (D4, log 4). -/
def Obligations.PcReachesMemSizeOnlyByAdvance : Prop :=
  ∀ (s t : State) (i : Instr) (rest : List Int), s.status.run = .running →
    decode (fetchWords s) = .instr i rest → step s = .next t → t.status.run ≠ .failed →
      t.pc ≤ Config.memSize ∧
        (t.pc = Config.memSize → s.pc + (encode i).length = Config.memSize ∧
          ∀ a, i ≠ .jump a ∧ (i = .jumpZero a → s.a ≠ 0) ∧ (i = .jumpNeg a → 0 ≤ s.a)) ∧
        (t.pc = Config.memSize → t.status.run = .running →
          step t = .next (t.failedWith .outOfRange Config.memSize))

/-! ### The invariant -/

/-- Every step keeps the invariant of 45_execution_loop.md R160 (which the spec marks as derived), under
every variant. -/
def Obligations.EveryStepKeepsTheInvariant : Prop :=
  (∀ s t : State, s.Inv → step s = .next t → t.Inv) ∧
    ∀ (v : Variant) (s t : State), s.Inv → stepUnder v s = .next t → t.Inv

/-- Every operation of the host on words keeps the invariant of 45_execution_loop.md R160 (which the spec
marks as derived). That the host hands over words is log 18. -/
def Obligations.EveryHostOperationKeepsTheInvariant : Prop :=
  ∀ (op : HostOp) (s t : State) (r : HostResult), s.Inv → op.wf = true →
    perform op s = .next (r, t) → t.Inv

/-- Two memories in canonical form that read alike at every address are the same list (log 11). -/
def Obligations.MemoriesThatReadAlikeAreEqual : Prop :=
  ∀ m n : Memory, Memory.wf m = true → Memory.wf n = true →
    (∀ a : Nat, Memory.read m a = Memory.read n a) → m = n

/-! ### The instructions -/

/-- 40_load_store.md R100, LOAD-A; its last two clauses are the rule's corner cases, an instruction that
loads one of its own two words. -/
def Obligations.LoadALoadsTheAccumulator : Prop :=
  ∀ (a : Int) (s : State),
    encode (.loadA a) = [1, a] ∧ decode [1, a] = .instr (.loadA a) [] ∧
    (valid a = true → exec (.loadA a) s = .next { s with a := memRead s a, pc := s.pc + 2 }) ∧
    (valid a = false → exec (.loadA a) s = .next (s.failedWith .outOfRange a)) ∧
    (InstrAtPc (.loadA a) s → a = s.pc → exec (.loadA a) s = .next { s with a := 1, pc := s.pc + 2 }) ∧
    (InstrAtPc (.loadA a) s → a = s.pc + 1 →
      exec (.loadA a) s = .next { s with a := a, pc := s.pc + 2 })

/-- 40_load_store.md R101, STORE-A. The cell stored to is the one the operand word names; every other
cell reads as before. The canonical form of the memory is the premise. -/
def Obligations.StoreAStoresTheAccumulator : Prop :=
  ∀ (a : Int) (s : State), Memory.wf s.mem = true →
    encode (.storeA a) = [2, a] ∧ decode [2, a] = .instr (.storeA a) [] ∧
    (valid a = true → ∃ t, exec (.storeA a) s = .next t ∧ t = { s with pc := s.pc + 2, mem := t.mem } ∧
      memRead t a = s.a ∧ ∀ b : Nat, (b : Int) ≠ a → Memory.read t.mem b = Memory.read s.mem b) ∧
    (valid a = false → exec (.storeA a) s = .next (s.failedWith .outOfRange a))

/-- ADD (41_arithmetic.md R111). The value outside the word range is the spec's own choice (D3, log 3). -/
def Obligations.AddWritesTheWrappedSum : Prop :=
  ∀ (a : Int) (s : State),
    encode (.add a) = [3, a] ∧ decode [3, a] = .instr (.add a) [] ∧
    (valid a = true → ∃ w, IsWrapOf w (s.a + memRead s a) ∧
      exec (.add a) s = .next { s with a := w, pc := s.pc + 2 }) ∧
    (valid a = false → exec (.add a) s = .next (s.failedWith .outOfRange a))

/-- SUB (41_arithmetic.md R112). The value outside the word range is the spec's own choice (D3, log 3). -/
def Obligations.SubWritesTheWrappedDifference : Prop :=
  ∀ (a : Int) (s : State),
    encode (.sub a) = [4, a] ∧ decode [4, a] = .instr (.sub a) [] ∧
    (valid a = true → ∃ w, IsWrapOf w (s.a - memRead s a) ∧
      exec (.sub a) s = .next { s with a := w, pc := s.pc + 2 }) ∧
    (valid a = false → exec (.sub a) s = .next (s.failedWith .outOfRange a))

/-- DIV (41_arithmetic.md R113): the range check, then the zero test, then the quotient rounded toward
zero, that is the library's `Int.tdiv`. The value outside the word range is the spec's own choice (D3,
log 3). -/
def Obligations.DivWritesTheTruncatedQuotient : Prop :=
  ∀ (a : Int) (s : State),
    encode (.div a) = [5, a] ∧ decode [5, a] = .instr (.div a) [] ∧
    (valid a = true → memRead s a ≠ 0 → ∃ w, IsWrapOf w (Int.tdiv s.a (memRead s a)) ∧
      exec (.div a) s = .next { s with a := w, pc := s.pc + 2 }) ∧
    (valid a = true → memRead s a = 0 → exec (.div a) s = .next (s.failedWith .divideByZero a)) ∧
    (valid a = false → exec (.div a) s = .next (s.failedWith .outOfRange a))

/-- COMPARE (41_arithmetic.md R114). The value outside the word range is the spec's own choice (D3, log
3). -/
def Obligations.CompareWritesTheWrappedDifference : Prop :=
  ∀ (a : Int) (s : State),
    encode (.compare a) = [9, a] ∧ decode [9, a] = .instr (.compare a) [] ∧
    (valid a = true → ∃ w, IsWrapOf w (s.a - memRead s a) ∧
      exec (.compare a) s = .next { s with cmp := w, pc := s.pc + 2 }) ∧
    (valid a = false → exec (.compare a) s = .next (s.failedWith .outOfRange a))

/-- 42_control.md R130, HALT: its meaning; the step that runs it at any address, the last one included,
whatever the word after it; and that the core stays where it then is. -/
def Obligations.HaltStopsTheCore : Prop :=
  encode .halt = [0] ∧ ∀ s : State,
    let t : State := { s with pc := s.pc + 1, status := { s.status with run := .halted } }
    exec .halt s = .next t ∧
      (s.status.run = .running → valid s.pc = true → memRead s s.pc = 0 →
        perform .step s = .next (.response .halted, t) ∧ step t = .next t)

/-- 42_control.md R131, JUMP; its last two clauses are the rule's corner cases, a JUMP to its own address
and one to its own operand word. -/
def Obligations.JumpAssignsThePc : Prop :=
  ∀ (a : Int) (s : State),
    encode (.jump a) = [6, a] ∧ decode [6, a] = .instr (.jump a) [] ∧
    (valid a = true → exec (.jump a) s = .next { s with pc := a.toNat } ∧ (a.toNat : Int) = a) ∧
    (valid a = false → exec (.jump a) s = .next (s.failedWith .outOfRange a)) ∧
    (s.status.run = .running → InstrAtPc (.jump a) s → a = s.pc → step s = .next s) ∧
    (s.status.run = .running → InstrAtPc (.jump a) s → a = s.pc + 1 →
      ∃ t, step s = .next t ∧ (t.pc : Int) = s.pc + 1 ∧ (fetchWords t).head? = some (s.pc + 1 : Int))

/-- JUMP-ZERO (42_control.md R132). That it tests A is the spec's resolution of 90_conflicts.md C1 (D4, log
4). -/
def Obligations.JumpZeroTestsTheAccumulator : Prop :=
  ∀ (a : Int) (s : State),
    encode (.jumpZero a) = [7, a] ∧ decode [7, a] = .instr (.jumpZero a) [] ∧
    (s.a ≠ 0 → exec (.jumpZero a) s = .next { s with pc := s.pc + 2 }) ∧
    (s.a = 0 → valid a = true → exec (.jumpZero a) s = .next { s with pc := a.toNat }) ∧
    (s.a = 0 → valid a = false → exec (.jumpZero a) s = .next (s.failedWith .outOfRange a))

/-- JUMP-NEG (42_control.md R133). That it tests A is the spec's resolution of 90_conflicts.md C1 (D4, log
4). -/
def Obligations.JumpNegTestsTheAccumulator : Prop :=
  ∀ (a : Int) (s : State),
    encode (.jumpNeg a) = [8, a] ∧ decode [8, a] = .instr (.jumpNeg a) [] ∧
    (0 ≤ s.a → exec (.jumpNeg a) s = .next { s with pc := s.pc + 2 }) ∧
    (s.a < 0 → valid a = true → exec (.jumpNeg a) s = .next { s with pc := a.toNat }) ∧
    (s.a < 0 → valid a = false → exec (.jumpNeg a) s = .next (s.failedWith .outOfRange a))

/-- 42_control.md R132 and R133 with `cond_reg` as they write it: A when COND_SRC = A, CMP when COND_SRC =
CMP. -/
def Obligations.ConditionalJumpsTestTheConditionRegister : Prop :=
  ∀ (p : OverflowPolicy) (c : CondSrc) (a : Int) (s : State),
    let v : Variant := { overflow := p, cond := c }
    let condReg : Int := if c = .a then s.a else s.cmp
    encode (.jumpZero a) = [7, a] ∧ encode (.jumpNeg a) = [8, a] ∧
    (condReg ≠ 0 → execUnder v (.jumpZero a) s = .next { s with pc := s.pc + 2 }) ∧
    (condReg = 0 → valid a = true → execUnder v (.jumpZero a) s = .next { s with pc := a.toNat }) ∧
    (condReg = 0 → valid a = false →
      execUnder v (.jumpZero a) s = .next (s.failedWith .outOfRange a)) ∧
    (0 ≤ condReg → execUnder v (.jumpNeg a) s = .next { s with pc := s.pc + 2 }) ∧
    (condReg < 0 → valid a = true → execUnder v (.jumpNeg a) s = .next { s with pc := a.toNat }) ∧
    (condReg < 0 → valid a = false → execUnder v (.jumpNeg a) s = .next (s.failedWith .outOfRange a))

/-! ### The ALU -/

/-- `alu_result` under each policy (41_arithmetic.md R110, the spec's own choice D3): the exact result
where it is a word; outside, the word equal to it modulo `2^W`, or the nearest end of the range, or no
result (Overflow). -/
def Obligations.AluResultFollowsThePolicy : Prop :=
  ∀ n : Int,
    (minW ≤ n ∧ n ≤ maxW → ∀ p, aluResult p n = some n) ∧
    (∃ w, aluResult .wrap n = some w ∧ IsWrapOf w n ∧ ∀ w', IsWrapOf w' n → w' = w) ∧
    (maxW < n → aluResult .saturate n = some maxW ∧ aluResult .fault n = none) ∧
    (n < minW → aluResult .saturate n = some minW ∧ aluResult .fault n = none)

/-- The four ALU instructions under every overflow policy: `alu_result` of the exact result, or, where it
raises, the error entry Overflow(a) with A, CMP and PC as they were (41_arithmetic.md section 2,
60_exceptions.md R184: the spec's own choice D3). -/
def Obligations.ArithmeticUnderEveryPolicy : Prop :=
  ∀ (v : Variant) (a : Int) (s : State), valid a = true →
    (∀ n, n = s.a + memRead s a →
      (∀ w, aluResult v.overflow n = some w →
        execUnder v (.add a) s = .next { s with a := w, pc := s.pc + 2 }) ∧
      (aluResult v.overflow n = none → execUnder v (.add a) s = .next (s.failedWith .overflow a))) ∧
    (∀ n, n = s.a - memRead s a →
      (∀ w, aluResult v.overflow n = some w →
        execUnder v (.sub a) s = .next { s with a := w, pc := s.pc + 2 } ∧
        execUnder v (.compare a) s = .next { s with cmp := w, pc := s.pc + 2 }) ∧
      (aluResult v.overflow n = none →
        execUnder v (.sub a) s = .next (s.failedWith .overflow a) ∧
        execUnder v (.compare a) s = .next (s.failedWith .overflow a))) ∧
    (∀ n, n = Int.tdiv s.a (memRead s a) → memRead s a ≠ 0 →
      (∀ w, aluResult v.overflow n = some w →
        execUnder v (.div a) s = .next { s with a := w, pc := s.pc + 2 }) ∧
      (aluResult v.overflow n = none → execUnder v (.div a) s = .next (s.failedWith .overflow a)))

/-- 41_arithmetic.md R115: ADD, SUB and DIV write A and PC only, COMPARE writes CMP and PC only, except
through a raise, which writes STATUS only. Under every policy. -/
def Obligations.AluInstructionsWriteOnlyTheirRegister : Prop :=
  ∀ (v : Variant) (a : Int) (s t : State),
    (∀ i, (i = .add a ∨ i = .sub a ∨ i = .div a) → execUnder v i s = .next t →
      (t = { s with a := t.a, pc := s.pc + 2 } ∨ t = s.failedWith t.status.err t.status.info) ∧
        t.x = s.x ∧ t.index = s.index ∧ t.cmp = s.cmp ∧
        ∀ b : Nat, Memory.read t.mem b = Memory.read s.mem b) ∧
    (execUnder v (.compare a) s = .next t →
      (t = { s with cmp := t.cmp, pc := s.pc + 2 } ∨ t = s.failedWith t.status.err t.status.info) ∧
        t.a = s.a ∧ t.x = s.x ∧ t.index = s.index ∧
        ∀ b : Nat, Memory.read t.mem b = Memory.read s.mem b)

/-- `trunc_div` rounds toward zero (00_scope.md R17, which the spec marks as derived; 41_arithmetic.md
R116): the remainder it leaves is smaller than the divisor and has the dividend's sign. Where the
quotient is 0 the model reads R17's sign clause as log 12 says. -/
def Obligations.TruncDivRoundsTowardZero : Prop :=
  ∀ n d : Int, d ≠ 0 →
    (truncDiv n d).natAbs = n.natAbs / d.natAbs ∧
      ∃ r : Int, n = truncDiv n d * d + r ∧ r.natAbs < d.natAbs ∧ (0 ≤ n → 0 ≤ r) ∧ (n ≤ 0 → r ≤ 0)

/-- MIN_W / -1 is the only overflowing division of words, and Wrap gives MIN_W (41_arithmetic.md R113's
corner cases; Wrap is the spec's own choice, D3). -/
def Obligations.OnlyMinWordByMinusOneOverflowsInDiv : Prop :=
  (∀ n d : Int, isWord n = true → isWord d = true → d ≠ 0 →
    (isWord (truncDiv n d) = false ↔ n = minW ∧ d = -1)) ∧
  ∀ (a : Int) (s : State), valid a = true → s.a = minW → memRead s a = -1 →
    exec (.div a) s = .next { s with pc := s.pc + 2 }

/-- CMP's sign after a COMPARE of words tells the order of A and M[a] when the subtraction does not
overflow, and tells the opposite when it does (41_arithmetic.md R114's corner cases; Wrap is the spec's own
choice, D3). -/
def Obligations.CompareSignTellsTheOrderUnlessItOverflows : Prop :=
  ∀ (a : Int) (s t : State), valid a = true → isWord s.a = true → isWord (memRead s a) = true →
    exec (.compare a) s = .next t →
    (isWord (s.a - memRead s a) = true →
      (t.cmp = 0 ↔ s.a = memRead s a) ∧ (t.cmp < 0 ↔ s.a < memRead s a)) ∧
    (isWord (s.a - memRead s a) = false → t.cmp ≠ 0 ∧ (t.cmp < 0 ↔ memRead s a < s.a))

/-! ### The whole machine -/

/-- What a step of a RUNNING core may write (the writers' column of 10_state.md R20): A only by LOAD-A,
ADD, SUB and DIV; X and the index registers by no instruction; CMP only by COMPARE; a cell only by a
STORE-A that names it, and it then holds A; STATUS only by HALT and by an error. -/
def Obligations.EachPieceOfStateHasOnlyItsWriters : Prop :=
  ∀ s t : State, Memory.wf s.mem = true → s.status.run = .running → step s = .next t →
    (t.a ≠ s.a → ∃ a, InstrAtPc (.loadA a) s ∨ InstrAtPc (.add a) s ∨ InstrAtPc (.sub a) s ∨
      InstrAtPc (.div a) s) ∧
    t.x = s.x ∧ t.index = s.index ∧
    (t.cmp ≠ s.cmp → ∃ a, InstrAtPc (.compare a) s) ∧
    (∀ b : Nat, Memory.read t.mem b ≠ Memory.read s.mem b →
      InstrAtPc (.storeA b) s ∧ Memory.read t.mem b = s.a) ∧
    (t.status ≠ s.status → InstrAtPc .halt s ∨ t.status.run = .failed)

/-- No step reads X, the index registers or CMP: with other values there it writes the same A, PC, STATUS
and memory (10_state.md R22, R23, R25, 42_control.md R135). For CMP this rests on COND_SRC = A, the spec's
resolution of 90_conflicts.md C1 (D4, log 4). -/
def Obligations.NoStepReadsXIndexOrCmp : Prop :=
  ∀ (s t : State) (x c : Int) (ix : Vector Int Config.numIndex), step s = .next t →
    ∃ c', step { s with x := x, index := ix, cmp := c } = .next { t with x := x, index := ix, cmp := c' } ∧
      ((c' = c ∧ t.cmp = s.cmp) ∨ (c' = t.cmp ∧ ∃ a, InstrAtPc (.compare a) s))

/-- A STORE-A completes as decoded even where it overwrites its own words, and what it put into the next
opcode word is what the next step decodes (40_load_store.md R101's corner cases, 20_memory.md R65, the
spec's own choice D16). -/
def Obligations.StoredWordIsSeenByTheNextFetch : Prop :=
  ∀ (s : State) (a : Int), Memory.wf s.mem = true → s.status.run = .running → InstrAtPc (.storeA a) s →
    valid a = true →
    ∃ t, step s = .next t ∧ t.pc = s.pc + 2 ∧ memRead t a = s.a ∧
      (∀ b : Nat, (b : Int) ≠ a → Memory.read t.mem b = Memory.read s.mem b) ∧
      (a = s.pc + 2 → ¬(0 ≤ s.a ∧ s.a ≤ 9) → step t = .next (t.failedWith .unknownOpcode s.a)) ∧
      (a = s.pc + 2 → s.a = 0 →
        step t = .next { t with pc := t.pc + 1, status := { t.status with run := .halted } })

/-! ### The run -/

/-- 45_execution_loop.md R158: a run ends exactly when a step returns Halted or Error, with that response
and the state after that step; what it then leaves. The first state is RUNNING where the clause speaks of
a HALT that the run executed or of a step that failed. -/
def Obligations.RunEndsAtTheFirstStop : Prop :=
  ∀ (s t : State) (r : Response),
    (RunEnds s r t ↔ r ≠ .cont ∧ ∃ k u, ContinuesTo k s u ∧ step u = .next t ∧ response t = r) ∧
    (RunEnds s .halted t → t.status.run = .halted) ∧
    (s.status.run = .running → RunEnds s .halted t →
      ∃ k u, ContinuesTo k s u ∧ InstrAtPc .halt u ∧ t.pc = u.pc + 1) ∧
    (∀ kind info, s.status.run = .running → RunEnds s (.error kind info) t →
      ∃ k u, ContinuesTo k s u ∧ t = u.failedWith kind info)

/-- A run has at most one end (45_execution_loop.md R156, R159). -/
def Obligations.RunHasAtMostOneEnd : Prop :=
  ∀ (s t t' : State) (r r' : Response), RunEnds s r t → RunEnds s r' t' → r = r' ∧ t = t'

/-- A JUMP to its own address runs forever (45_execution_loop.md R157): every bounded run spends its budget
and the state never changes. -/
def Obligations.JumpToItselfNeverEnds : Prop :=
  ∀ s : State, s.status.run = .running → InstrAtPc (.jump s.pc) s →
    ∀ k : Nat, ContinuesTo k s s ∧ runFor k s = none

/-! ### The host port -/

/-- 10_state.md R30: the host reads A, X, every I[k], CMP, PC and STATUS without side effects. -/
def Obligations.InspectionReadsHaveNoSideEffects : Prop :=
  ∀ s : State,
    perform (.readRegister .a) s = .next (.word s.a, s) ∧
    perform (.readRegister .x) s = .next (.word s.x, s) ∧
    (∀ k : Fin Config.numIndex,
      perform (.readRegister (.index (k : Nat))) s = .next (.word s.index[k], s)) ∧
    perform .inspectCmp s = .next (.word s.cmp, s) ∧
    perform .inspectPc s = .next (.location s.pc, s) ∧
    perform .inspectStatus s = .next (.status s.status, s)

/-- 10_state.md R31 and R32: the register port, in every value of STATUS.run. -/
def Obligations.RegisterPortReadsAndWritesOneRegister : Prop :=
  ∀ (s : State) (v : Int), isWord v = true →
    perform (.readRegister .a) s = .next (.word s.a, s) ∧
    perform (.readRegister .x) s = .next (.word s.x, s) ∧
    perform (.writeRegister .a v) s = .next (.ok, { s with a := v }) ∧
    perform (.writeRegister .x v) s = .next (.ok, { s with x := v }) ∧
    (∀ k : Fin Config.numIndex,
      perform (.readRegister (.index (k : Nat))) s = .next (.word s.index[k], s) ∧
      ∃ t, perform (.writeRegister (.index (k : Nat)) v) s = .next (.ok, t) ∧
        t = { s with index := t.index } ∧
        ∀ j : Fin Config.numIndex, t.index[j] = if j = k then v else s.index[j]) ∧
    (∀ k : Int, ¬(0 ≤ k ∧ k < Config.numIndex) →
      perform (.readRegister (.index k)) s = .next (.error .indexOutOfRange, s) ∧
      perform (.writeRegister (.index k) v) s = .next (.error .indexOutOfRange, s))

/-- 20_memory.md R55 and R56: the memory port. The canonical form of the memory is the premise. -/
def Obligations.MemoryPortReadsBackWhatItWrote : Prop :=
  ∀ (s : State) (a v : Int), Memory.wf s.mem = true → isWord v = true →
    (valid a = true →
      perform (.read a) s = .next (.word (memRead s a), s) ∧
      ∃ t, perform (.write a v) s = .next (.ok, t) ∧ t = { s with mem := t.mem } ∧
        perform (.read a) t = .next (.word v, t) ∧
        ∀ b : Int, valid b = true → b ≠ a → perform (.read b) t = .next (.word (memRead s b), t)) ∧
    (valid a = false →
      perform (.read a) s = .next (.error .outOfRange, s) ∧
      perform (.write a v) s = .next (.error .outOfRange, s) ∧
      perform (.setProgramCounter a) s = .next (.error .outOfRange, s))

/-- `set_program_counter` (10_state.md R34): it sets PC where the address is valid and restarts nothing. That
it does not restart a stopped core is the spec's own choice (D9). -/
def Obligations.SetProgramCounterSetsOnlyThePc : Prop :=
  ∀ (s : State) (a : Int),
    (valid a = true → perform (.setProgramCounter a) s = .next (.ok, { s with pc := a.toNat })) ∧
    (valid a = false → perform (.setProgramCounter a) s = .next (.error .outOfRange, s))

/-- `load_program` (70_reset_and_hazards.md R211, R212): each word at its matching index, all else kept; a
program that is too large writes no cell. What else a load leaves and what a failed one does are the spec's
own choices (D21, D12, log 14). -/
def Obligations.LoadedProgramStandsAtItsIndices : Prop :=
  ∀ (s : State) (words : List Int), Memory.wf s.mem = true →
    (words.length ≤ Config.memSize → ∃ t, perform (.loadProgram words) s = .next (.ok, t) ∧
      t = { s with mem := t.mem } ∧
      (∀ (k : Nat) (h : k < words.length), Memory.read t.mem k = words[k]) ∧
      ∀ k : Nat, words.length ≤ k → Memory.read t.mem k = Memory.read s.mem k) ∧
    (Config.memSize < words.length →
      perform (.loadProgram words) s = .next (.error .programTooLarge, s))

/-- An operation that fails at the host port leaves all state unchanged, STATUS included (10_state.md R33,
the spec's own choice D11). -/
def Obligations.FailedHostOperationChangesNothing : Prop :=
  ∀ (op : HostOp) (s t : State) (kind : ErrorKind), perform op s = .next (.error kind, t) → t = s

/-- Only reset leaves HALTED or FAILED (70_reset_and_hazards.md R210, 60_exceptions.md R186, the spec's own
choice D9): no other operation changes STATUS there. -/
def Obligations.OnlyResetRestartsAStoppedCore : Prop :=
  ∀ (op : HostOp) (s t : State) (r : HostResult), s.status.run ≠ .running → op ≠ .reset →
    perform op s = .next (r, t) → t.status = s.status
end

