-- ==== Sys2Proof/Laws/State.lean ====
section
/-! SUPPORT. What each named update does to each field of State, one lemma per field and update. -/

namespace Sys2Proof.Machine

variable (s : State)

@[simp] theorem setA_a (w : Int) : (s.setA w).a = w := rfl
@[simp] theorem setA_x (w : Int) : (s.setA w).x = s.x := rfl
@[simp] theorem setA_index (w : Int) : (s.setA w).index = s.index := rfl
@[simp] theorem setA_cmp (w : Int) : (s.setA w).cmp = s.cmp := rfl
@[simp] theorem setA_pc (w : Int) : (s.setA w).pc = s.pc := rfl
@[simp] theorem setA_status (w : Int) : (s.setA w).status = s.status := rfl
@[simp] theorem setA_mem (w : Int) : (s.setA w).mem = s.mem := rfl

@[simp] theorem setX_a (w : Int) : (s.setX w).a = s.a := rfl
@[simp] theorem setX_x (w : Int) : (s.setX w).x = w := rfl
@[simp] theorem setX_index (w : Int) : (s.setX w).index = s.index := rfl
@[simp] theorem setX_cmp (w : Int) : (s.setX w).cmp = s.cmp := rfl
@[simp] theorem setX_pc (w : Int) : (s.setX w).pc = s.pc := rfl
@[simp] theorem setX_status (w : Int) : (s.setX w).status = s.status := rfl
@[simp] theorem setX_mem (w : Int) : (s.setX w).mem = s.mem := rfl

@[simp] theorem setIndex_a (f : Vector Int Config.numIndex) : (s.setIndex f).a = s.a := rfl
@[simp] theorem setIndex_x (f : Vector Int Config.numIndex) : (s.setIndex f).x = s.x := rfl
@[simp] theorem setIndex_index (f : Vector Int Config.numIndex) : (s.setIndex f).index = f := rfl
@[simp] theorem setIndex_cmp (f : Vector Int Config.numIndex) : (s.setIndex f).cmp = s.cmp := rfl
@[simp] theorem setIndex_pc (f : Vector Int Config.numIndex) : (s.setIndex f).pc = s.pc := rfl
@[simp] theorem setIndex_status (f : Vector Int Config.numIndex) : (s.setIndex f).status = s.status := rfl
@[simp] theorem setIndex_mem (f : Vector Int Config.numIndex) : (s.setIndex f).mem = s.mem := rfl

@[simp] theorem setCmp_a (w : Int) : (s.setCmp w).a = s.a := rfl
@[simp] theorem setCmp_x (w : Int) : (s.setCmp w).x = s.x := rfl
@[simp] theorem setCmp_index (w : Int) : (s.setCmp w).index = s.index := rfl
@[simp] theorem setCmp_cmp (w : Int) : (s.setCmp w).cmp = w := rfl
@[simp] theorem setCmp_pc (w : Int) : (s.setCmp w).pc = s.pc := rfl
@[simp] theorem setCmp_status (w : Int) : (s.setCmp w).status = s.status := rfl
@[simp] theorem setCmp_mem (w : Int) : (s.setCmp w).mem = s.mem := rfl

@[simp] theorem setPc_a (p : Nat) : (s.setPc p).a = s.a := rfl
@[simp] theorem setPc_x (p : Nat) : (s.setPc p).x = s.x := rfl
@[simp] theorem setPc_index (p : Nat) : (s.setPc p).index = s.index := rfl
@[simp] theorem setPc_cmp (p : Nat) : (s.setPc p).cmp = s.cmp := rfl
@[simp] theorem setPc_pc (p : Nat) : (s.setPc p).pc = p := rfl
@[simp] theorem setPc_status (p : Nat) : (s.setPc p).status = s.status := rfl
@[simp] theorem setPc_mem (p : Nat) : (s.setPc p).mem = s.mem := rfl

@[simp] theorem setStatus_a (st : Status) : (s.setStatus st).a = s.a := rfl
@[simp] theorem setStatus_x (st : Status) : (s.setStatus st).x = s.x := rfl
@[simp] theorem setStatus_index (st : Status) : (s.setStatus st).index = s.index := rfl
@[simp] theorem setStatus_cmp (st : Status) : (s.setStatus st).cmp = s.cmp := rfl
@[simp] theorem setStatus_pc (st : Status) : (s.setStatus st).pc = s.pc := rfl
@[simp] theorem setStatus_status (st : Status) : (s.setStatus st).status = st := rfl
@[simp] theorem setStatus_mem (st : Status) : (s.setStatus st).mem = s.mem := rfl

@[simp] theorem setMem_a (m : Memory) : (s.setMem m).a = s.a := rfl
@[simp] theorem setMem_x (m : Memory) : (s.setMem m).x = s.x := rfl
@[simp] theorem setMem_index (m : Memory) : (s.setMem m).index = s.index := rfl
@[simp] theorem setMem_cmp (m : Memory) : (s.setMem m).cmp = s.cmp := rfl
@[simp] theorem setMem_pc (m : Memory) : (s.setMem m).pc = s.pc := rfl
@[simp] theorem setMem_status (m : Memory) : (s.setMem m).status = s.status := rfl
@[simp] theorem setMem_mem (m : Memory) : (s.setMem m).mem = m := rfl

@[simp] theorem advance_a (n : Nat) : (advance n s).a = s.a := rfl
@[simp] theorem advance_x (n : Nat) : (advance n s).x = s.x := rfl
@[simp] theorem advance_index (n : Nat) : (advance n s).index = s.index := rfl
@[simp] theorem advance_cmp (n : Nat) : (advance n s).cmp = s.cmp := rfl
@[simp] theorem advance_pc (n : Nat) : (advance n s).pc = s.pc + n := rfl
@[simp] theorem advance_status (n : Nat) : (advance n s).status = s.status := rfl
@[simp] theorem advance_mem (n : Nat) : (advance n s).mem = s.mem := rfl

@[simp] theorem raise_a (k : ErrorKind) (i : Int) : (raise k i s).a = s.a := rfl
@[simp] theorem raise_x (k : ErrorKind) (i : Int) : (raise k i s).x = s.x := rfl
@[simp] theorem raise_index (k : ErrorKind) (i : Int) : (raise k i s).index = s.index := rfl
@[simp] theorem raise_cmp (k : ErrorKind) (i : Int) : (raise k i s).cmp = s.cmp := rfl
@[simp] theorem raise_pc (k : ErrorKind) (i : Int) : (raise k i s).pc = s.pc := rfl
@[simp] theorem raise_status (k : ErrorKind) (i : Int) : (raise k i s).status = { run := .failed, err := k, info := i } := rfl
@[simp] theorem raise_mem (k : ErrorKind) (i : Int) : (raise k i s).mem = s.mem := rfl

@[simp] theorem enterHalted_a : (enterHalted s).a = s.a := rfl
@[simp] theorem enterHalted_x : (enterHalted s).x = s.x := rfl
@[simp] theorem enterHalted_index : (enterHalted s).index = s.index := rfl
@[simp] theorem enterHalted_cmp : (enterHalted s).cmp = s.cmp := rfl
@[simp] theorem enterHalted_pc : (enterHalted s).pc = s.pc := rfl
@[simp] theorem enterHalted_status : (enterHalted s).status = { s.status with run := .halted } := rfl
@[simp] theorem enterHalted_mem : (enterHalted s).mem = s.mem := rfl

@[simp] theorem memWrite_a (b : Int) (w : Int) : (memWrite b w s).a = s.a := rfl
@[simp] theorem memWrite_x (b : Int) (w : Int) : (memWrite b w s).x = s.x := rfl
@[simp] theorem memWrite_index (b : Int) (w : Int) : (memWrite b w s).index = s.index := rfl
@[simp] theorem memWrite_cmp (b : Int) (w : Int) : (memWrite b w s).cmp = s.cmp := rfl
@[simp] theorem memWrite_pc (b : Int) (w : Int) : (memWrite b w s).pc = s.pc := rfl
@[simp] theorem memWrite_status (b : Int) (w : Int) : (memWrite b w s).status = s.status := rfl
@[simp] theorem memWrite_mem (b : Int) (w : Int) : (memWrite b w s).mem = Memory.write s.mem b.toNat w := rfl

@[simp] theorem writeIndex_a (k : Int) (w : Int) : (writeIndex k w s).a = s.a := rfl
@[simp] theorem writeIndex_x (k : Int) (w : Int) : (writeIndex k w s).x = s.x := rfl
@[simp] theorem writeIndex_index (k : Int) (w : Int) : (writeIndex k w s).index = s.index.setIfInBounds k.toNat w := rfl
@[simp] theorem writeIndex_cmp (k : Int) (w : Int) : (writeIndex k w s).cmp = s.cmp := rfl
@[simp] theorem writeIndex_pc (k : Int) (w : Int) : (writeIndex k w s).pc = s.pc := rfl
@[simp] theorem writeIndex_status (k : Int) (w : Int) : (writeIndex k w s).status = s.status := rfl
@[simp] theorem writeIndex_mem (k : Int) (w : Int) : (writeIndex k w s).mem = s.mem := rfl

end Sys2Proof.Machine
end

