-- ==== Sys2Proof/Laws/Words.lean ====
section
/-! SUPPORT. Words: what `isWord` says, and what the ALU's result function can answer. -/

namespace Sys2Proof

theorem two_pow_wordBits_pred :
    (2 : Int) ^ (Config.wordBits - 1) = 4096 * 2 ^ Config.extraBits := by
  have h : Config.wordBits - 1 = 12 + Config.extraBits := by unfold Config.wordBits; omega
  rw [h, pow_add]; norm_num

theorem two_pow_wordBits : (2 : Int) ^ Config.wordBits = 8192 * 2 ^ Config.extraBits := by
  unfold Config.wordBits; rw [pow_add]; norm_num

theorem two_pow_wordBits_nat : (2 : Nat) ^ Config.wordBits = 8192 * 2 ^ Config.extraBits := by
  unfold Config.wordBits; rw [pow_add]; norm_num

theorem one_le_two_pow_extraBits : (1 : Int) ≤ 2 ^ Config.extraBits := by
  exact_mod_cast Nat.one_le_two_pow

/-- The word range is symmetric but for one value, and at least 13 bits wide (00_scope.md R6, R12). -/
theorem word_range : minW = -(maxW + 1) ∧ 4095 ≤ maxW := by
  have h := one_le_two_pow_extraBits
  unfold minW maxW; rw [two_pow_wordBits_pred]; constructor <;> omega

/-- `isWord` is the range of 00_scope.md R12, for every width. -/
theorem isWord_iff {n : Int} : isWord n = true ↔ minW ≤ n ∧ n ≤ maxW := by
  have h := word_range
  simp only [isWord, Bool.or_eq_true, Bool.and_eq_true, decide_eq_true_eq]
  omega

theorem isWord_false_iff {n : Int} : isWord n = false ↔ n < minW ∨ maxW < n := by
  rw [← Bool.not_eq_true, isWord_iff]; omega

theorem isWord_zero : isWord 0 = true := by decide

/-- `2^W`, the modulus of Wrap, is the number of words. -/
theorem word_modulus : (2 : Int) ^ Config.wordBits = maxW - minW + 1 := by
  unfold minW maxW; rw [two_pow_wordBits, two_pow_wordBits_pred]; ring

namespace Machine

theorem valid_iff {a : Int} : valid a = true ↔ 0 ≤ a ∧ a < 4000 := by
  have h : Nat.blt a.toNat Config.memSize = true ↔ a.toNat < 4000 := by
    rw [Nat.blt_eq]; rfl
  rw [valid, Bool.and_eq_true, decide_eq_true_eq, h]
  omega

theorem valid_false_iff {a : Int} : valid a = false ↔ a < 0 ∨ 4000 ≤ a := by
  rw [← Bool.not_eq_true, valid_iff]; omega

/-- Every valid address is a word (00_scope.md R6). -/
theorem isWord_of_valid {a : Int} (h : valid a = true) : isWord a = true := by
  have := word_range
  rw [valid_iff] at h
  rw [isWord_iff]; omega

/-- Wrap answers a word, equal to the exact result modulo `2^W` (41_arithmetic.md R110). -/
theorem wrapWord_spec (n : Int) :
    isWord (wrapWord n) = true ∧ (2 ^ Config.wordBits : Int) ∣ wrapWord n - n := by
  have hm := two_pow_wordBits
  have hp := one_le_two_pow_extraBits
  have hr := word_range
  have hmod := word_modulus
  have hpos : 0 < 2 ^ Config.wordBits := Nat.two_pow_pos _
  have hcast : ((2 ^ Config.wordBits : Nat) : Int) = 2 ^ Config.wordBits := by push_cast; rfl
  have hlo := Int.le_bmod (x := n) hpos
  have hhi := Int.bmod_lt (x := n) hpos
  rw [hcast] at hlo hhi
  refine ⟨?_, ?_⟩
  · rw [isWord_iff]; unfold wrapWord; omega
  · have h := Int.emod_emod_of_dvd n (dvd_refl (2 ^ Config.wordBits : Int))
    have hb : Int.bmod n (2 ^ Config.wordBits) % (2 ^ Config.wordBits : Nat) = n % (2 ^ Config.wordBits : Nat) :=
      Int.bmod_emod
    rw [hcast] at hb
    exact Int.dvd_of_emod_eq_zero (Int.emod_eq_emod_iff_emod_sub_eq_zero.mp hb)

theorem saturateWord_isWord (n : Int) : isWord (saturateWord n) = true := by
  have := word_range
  rw [isWord_iff]; unfold saturateWord; split <;> omega

theorem aluResult_of_isWord {p : OverflowPolicy} {n : Int} (h : isWord n = true) :
    aluResult p n = some n := by
  simp [aluResult, h]

/-- All that `alu_result` can answer: a word. -/
theorem isWord_of_aluResult {p : OverflowPolicy} {n w : Int} (h : aluResult p n = some w) :
    isWord w = true := by
  unfold aluResult at h
  split at h
  · cases h; assumption
  · cases p <;> cases h
    · exact (wrapWord_spec n).1
    · exact saturateWord_isWord n

/-- Only the Fault policy raises Overflow, and only outside the word range (60_exceptions.md R184). -/
theorem aluResult_eq_none {p : OverflowPolicy} {n : Int} :
    aluResult p n = none ↔ p = .fault ∧ isWord n = false := by
  unfold aluResult
  split <;> cases p <;> simp_all

/-- Under the normative policy there always is a result. -/
theorem aluResult_normative (n : Int) : ∃ w, aluResult Config.variant.overflow n = some w := by
  unfold aluResult
  split
  · exact ⟨_, rfl⟩
  · exact ⟨_, rfl⟩

/-- `trunc_div` is the T-rounding division of the library. -/
theorem truncDiv_eq_tdiv (n d : Int) : truncDiv n d = n.tdiv d := by
  have h := Int.natAbs_tdiv n d
  unfold truncDiv
  rcases lt_or_ge n 0 with hn | hn <;> rcases lt_or_ge d 0 with hd | hd
  · rw [if_pos (by simp [hn, hd])]
    obtain ⟨n', rfl⟩ := Int.eq_negSucc_of_lt_zero hn
    obtain ⟨d', rfl⟩ := Int.eq_negSucc_of_lt_zero hd
    rfl
  · rw [if_neg (by simp [hn, not_lt.mpr hd])]
    obtain ⟨n', rfl⟩ := Int.eq_negSucc_of_lt_zero hn
    obtain ⟨d', rfl⟩ := Int.eq_ofNat_of_zero_le hd
    rfl
  · rw [if_neg (by simp [hd, not_lt.mpr hn])]
    obtain ⟨n', rfl⟩ := Int.eq_ofNat_of_zero_le hn
    obtain ⟨d', rfl⟩ := Int.eq_negSucc_of_lt_zero hd
    rfl
  · rw [if_pos (by simp [not_lt.mpr hd, not_lt.mpr hn])]
    obtain ⟨n', rfl⟩ := Int.eq_ofNat_of_zero_le hn
    obtain ⟨d', rfl⟩ := Int.eq_ofNat_of_zero_le hd
    rfl

end Machine

theorem wordOfBits_isWord (b : Nat) : isWord (wordOfBits b) = true := by
  unfold wordOfBits
  split
  · assumption
  · exact (Machine.wrapWord_spec (b : Int)).1

end Sys2Proof
end

