-- ==== Sys2Proof/Laws/Memory.lean ====
section
/-! SUPPORT. The laws of one memory: what a read gives after a write, and that every operation keeps
the canonical form. -/

namespace Sys2Proof.Machine

@[simp] theorem read_nil (a : Nat) : Memory.read [] a = 0 := rfl

theorem read_cons (b : Nat) (v : Int) (m : Memory) (a : Nat) :
    Memory.read ((b, v) :: m) a = if a = b then v else Memory.read m a := rfl

theorem wfFrom_cons {lo a : Nat} {v : Int} {m : Memory} :
    Memory.wfFrom lo ((a, v) :: m) = true ↔
      lo ≤ a ∧ a < Config.memSize ∧ v ≠ 0 ∧ Memory.wfFrom (a + 1) m = true := by
  simp only [Memory.wfFrom, Bool.and_eq_true, decide_eq_true_eq, and_assoc]
  rfl

theorem wfFrom_mono {lo hi : Nat} {m : Memory} (h : lo ≤ hi) (hm : Memory.wfFrom hi m = true) :
    Memory.wfFrom lo m = true := by
  cases m with
  | nil => rfl
  | cons c m => rw [wfFrom_cons] at hm ⊢; exact ⟨by omega, hm.2⟩

/-- Below its lowest listed address a canonical memory reads as unlisted. -/
theorem read_below {lo : Nat} {m : Memory} (hm : Memory.wfFrom lo m = true) {a : Nat} (ha : a < lo) :
    Memory.read m a = 0 := by
  induction m generalizing lo with
  | nil => rfl
  | cons c m ih =>
    obtain ⟨b, v⟩ := c
    rw [wfFrom_cons] at hm
    rw [read_cons, if_neg (by omega)]
    exact ih hm.2.2.2 (by omega)

theorem read_consCell {a : Nat} {v : Int} {m : Memory} (h : Memory.read m a = 0) (b : Nat) :
    Memory.read (Memory.consCell a v m) b = if b = a then v else Memory.read m b := by
  unfold Memory.consCell Memory.unlisted
  split
  · subst_vars; split <;> simp_all
  · rw [read_cons]

theorem wfFrom_consCell {lo a : Nat} {v : Int} {m : Memory} (hlo : lo ≤ a) (ha : a < Config.memSize)
    (hm : Memory.wfFrom (a + 1) m = true) : Memory.wfFrom lo (Memory.consCell a v m) = true := by
  unfold Memory.consCell Memory.unlisted
  split
  · exact wfFrom_mono (by omega) hm
  · rw [wfFrom_cons]; exact ⟨hlo, ha, by assumption, hm⟩

/-- The one spec of a write: what every address reads afterwards. -/
theorem read_write_from {lo : Nat} {m : Memory} (hm : Memory.wfFrom lo m = true) (a : Nat) (v : Int)
    (b : Nat) : Memory.read (Memory.write m a v) b = if b = a then v else Memory.read m b := by
  induction m generalizing lo with
  | nil => exact read_consCell rfl b
  | cons c m ih =>
    obtain ⟨e, w⟩ := c
    have hc := wfFrom_cons.mp hm
    unfold Memory.write
    split
    · next h =>
      refine read_consCell ?_ b
      rw [read_cons, if_neg (by omega)]
      exact read_below hc.2.2.2 (by omega)
    · split
      · next h =>
        subst h
        rw [read_consCell (read_below hc.2.2.2 (by omega)) b, read_cons]
        split <;> rfl
      · next h1 h2 =>
        rw [read_cons, ih hc.2.2.2, read_cons]
        split <;> split <;> first | rfl | omega

theorem read_write {m : Memory} (hm : Memory.wf m = true) (a : Nat) (v : Int) (b : Nat) :
    Memory.read (Memory.write m a v) b = if b = a then v else Memory.read m b :=
  read_write_from hm a v b

theorem wfFrom_write {lo : Nat} {m : Memory} (hm : Memory.wfFrom lo m = true) {a : Nat} (v : Int)
    (hlo : lo ≤ a) (ha : a < Config.memSize) : Memory.wfFrom lo (Memory.write m a v) = true := by
  induction m generalizing lo with
  | nil => exact wfFrom_consCell hlo ha rfl
  | cons c m ih =>
    obtain ⟨e, w⟩ := c
    have hc := wfFrom_cons.mp hm
    unfold Memory.write
    split
    · next h => exact wfFrom_consCell hlo ha (wfFrom_cons.mpr ⟨by omega, hc.2⟩)
    · split
      · next h => subst h; exact wfFrom_consCell hlo ha hc.2.2.2
      · next h1 h2 =>
        exact wfFrom_cons.mpr ⟨hc.1, hc.2.1, hc.2.2.1, ih hc.2.2.2 (by omega)⟩

/-- A write to a cell that exists keeps the canonical form. -/
theorem wf_write {m : Memory} (hm : Memory.wf m = true) {a : Nat} (v : Int)
    (ha : a < Config.memSize) : Memory.wf (Memory.write m a v) = true :=
  wfFrom_write hm v (Nat.zero_le a) ha

/-- Loading words into cells that exist keeps the canonical form. -/
theorem wf_load {m : Memory} {i : Nat} {words : List Int} (hm : Memory.wf m = true)
    (h : i + words.length ≤ Config.memSize) : Memory.wf (Memory.load m i words) = true := by
  induction words generalizing m i with
  | nil => exact hm
  | cons v rest ih =>
    simp only [List.length_cons] at h
    exact ih (wf_write hm v (by omega)) (by omega)

theorem wf_reset : Memory.wf State.reset.mem = true := rfl

theorem memRead_eq (s : State) (a : Int) : memRead s a = Memory.read s.mem a.toNat := rfl

/-- `MemWrite` to a valid address keeps the canonical form. -/
theorem wf_memWrite {s : State} (hm : Memory.wf s.mem = true) {a : Int} (w : Int)
    (ha : valid a = true) : Memory.wf (memWrite a w s).mem = true := by
  rw [valid_iff] at ha
  exact wf_write hm w (by unfold Config.memSize; omega)

end Sys2Proof.Machine
end

