-- ==== Sys2Proof/Laws/Step.lean ====
section
/-! SUPPORT. Once for each shared operation, all it can do; and that `exec` and `step` are the
normative instance of the parametrised machine. -/

namespace Sys2Proof.Machine

/-- A taken jump: PC takes a valid target, or the error entry for an invalid one. -/
theorem jumpTo_cases {a : Int} {s : State} {r : Result} (h : jumpTo a s = r) :
    (valid a = true ∧ r = .next (s.setPc a.toNat)) ∨
      (valid a = false ∧ r = .next (raise .outOfRange a s)) := by
  unfold jumpTo at h
  split at h
  · exact .inl ⟨by assumption, h.symm⟩
  · exact .inr ⟨eq_false_of_ne_true (by assumption), h.symm⟩

/-- A data address: the instruction goes on where it is valid, else the error entry. -/
theorem withDataAddress_cases {a : Int} {s : State} {k r : Result} (h : withDataAddress a s k = r) :
    (valid a = true ∧ r = k) ∨ (valid a = false ∧ r = .next (raise .outOfRange a s)) := by
  unfold withDataAddress at h
  split at h
  · exact .inl ⟨by assumption, h.symm⟩
  · exact .inr ⟨eq_false_of_ne_true (by assumption), h.symm⟩

/-- A data word: the instruction goes on with M[a], else the error entry. -/
theorem withDataWord_cases {a : Int} {s : State} {k : Int → Result} {r : Result}
    (h : withDataWord a s k = r) :
    (valid a = true ∧ r = k (memRead s a)) ∨ (valid a = false ∧ r = .next (raise .outOfRange a s)) :=
  withDataAddress_cases h

/-- An ALU result: the instruction goes on with a word, or the Fault policy raises Overflow. -/
theorem withAluResult_cases {p : OverflowPolicy} {a : Int} {n : Int} {s : State} {k : Int → Result}
    {r : Result} (h : withAluResult p a n s k = r) :
    (∃ w, aluResult p n = some w ∧ isWord w = true ∧ r = k w) ∨
      (aluResult p n = none ∧ p = .fault ∧ r = .next (raise .overflow a s)) := by
  unfold withAluResult at h
  split at h
  · next w hw => exact .inl ⟨w, hw, isWord_of_aluResult hw, h.symm⟩
  · next hn => exact .inr ⟨hn, (aluResult_eq_none.mp hn).1, h.symm⟩

/-- The fetch: which words are there. -/
theorem fetchWords_eq (s : State) :
    fetchWords s =
      if s.pc < 3999 then [memRead s s.pc, memRead s (s.pc + 1)]
      else if s.pc = 3999 then [memRead s s.pc] else [] := by
  unfold fetchWords
  by_cases h1 : s.pc < 3999
  · rw [if_pos (valid_iff.mpr (by omega)), if_pos (valid_iff.mpr (by omega)), if_pos h1]
  · have h2 : ¬valid ((s.pc : Int) + 1) = true := by rw [valid_iff]; omega
    rw [if_neg h2, if_neg h1]
    by_cases h3 : s.pc = 3999
    · rw [if_pos (valid_iff.mpr (by omega)), if_pos h3]
    · rw [if_neg (by rw [valid_iff]; omega), if_neg h3]

/-- All that a step around `execute` can be: a terminal state stays, an instruction runs, or one of the
sequencer's own checks fails. -/
theorem sequencerStep_cases {execute : Instr → State → Result} {s : State} {r : Result}
    (h : sequencerStep execute s = r) :
    (s.status.run ≠ .running ∧ r = .next s) ∨
      (s.status.run = .running ∧
        ((∃ i rest, decode (fetchWords s) = .instr i rest ∧ r = execute i s) ∨
          (∃ v, decode (fetchWords s) = .unknownOpcode v ∧ r = .next (raise .unknownOpcode v s)) ∨
          (decode (fetchWords s) = .noOpcodeWord ∧ r = .next (raise .outOfRange s.pc s)) ∨
          (decode (fetchWords s) = .noOperandWord ∧ r = .next (raise .outOfRange (s.pc + 1) s)))) := by
  unfold sequencerStep at h
  split at h
  · next hr => exact .inl ⟨by simp [hr], h.symm⟩
  · next hr => exact .inl ⟨by simp [hr], h.symm⟩
  · next hr =>
    refine .inr ⟨hr, ?_⟩
    split at h
    · next i rest hd => exact .inl ⟨i, rest, hd, h.symm⟩
    · next v hd => exact .inr (.inl ⟨v, hd, h.symm⟩)
    · next hd => exact .inr (.inr (.inl ⟨hd, h.symm⟩))
    · next hd => exact .inr (.inr (.inr ⟨hd, h.symm⟩))

/-- Placing words keeps the canonical form: it writes only cells that exist. -/
theorem wf_placeWords {s : State} (hm : Memory.wf s.mem = true) (a : Int) (words : List Int) :
    Memory.wf (placeWords a words s).mem = true := by
  induction words generalizing a s with
  | nil => exact hm
  | cons w rest ih =>
    refine ih ?_ (a + 1)
    split
    · exact wf_memWrite hm w (by assumption)
    · exact hm

theorem exec_eq_execUnder (i : Instr) (s : State) : exec i s = execUnder Config.variant i s := by
  cases i <;> rfl

theorem step_eq_stepUnder (s : State) : step s = stepUnder Config.variant s := by
  have h : exec = execUnder Config.variant := funext fun i => funext fun t => exec_eq_execUnder i t
  unfold step stepUnder; rw [h]

end Sys2Proof.Machine
end

