-- ==== Sys2Proof/Laws/Exec.lean ====
section
/-! SUPPORT. Once and for all: what the decoder can answer, what a meaning can do and what a step can
do. Later proofs cite `execUnder_outcome` and `stepUnder_outcome` and unfold neither. -/

namespace Sys2Proof

/-- The opcode word of each opcode (30_encoding.md R73). -/
def Opcode.word : Opcode → Int
  | .halt => 0
  | .loadA => 1
  | .storeA => 2
  | .add => 3
  | .sub => 4
  | .div => 5
  | .jump => 6
  | .jumpZero => 7
  | .jumpNeg => 8
  | .compare => 9

theorem eq_word_of_opcodeOf {v : Int} {o : Opcode} (h : opcodeOf v = some o) : v = o.word := by
  unfold opcodeOf at h
  split at h <;> first | (cases h; rfl) | cases h

theorem opcodeOf_word (o : Opcode) : opcodeOf o.word = some o := by
  cases o <;> rfl

theorem opcodeOf_eq_none {v : Int} : opcodeOf v = none ↔ ¬(0 ≤ v ∧ v ≤ 9) := by
  constructor
  · intro h hv
    have hv' : v = 0 ∨ v = 1 ∨ v = 2 ∨ v = 3 ∨ v = 4 ∨ v = 5 ∨ v = 6 ∨ v = 7 ∨ v = 8 ∨ v = 9 := by
      omega
    rcases hv' with e | e | e | e | e | e | e | e | e | e <;> subst e <;> cases h
  · intro h
    cases ho : opcodeOf v with
    | none => rfl
    | some o =>
      have := eq_word_of_opcodeOf ho
      cases o <;> simp only [Opcode.word] at this <;> omega

/-- The decoder reads an instruction only from its own words. -/
theorem eq_encode_of_decode {ws rest : List Int} {i : Instr} (h : decode ws = .instr i rest) :
    ws = encode i ++ rest := by
  cases ws with
  | nil => cases h
  | cons v r =>
    cases ho : opcodeOf v with
    | none => simp [decode, ho] at h
    | some o =>
      have hv := eq_word_of_opcodeOf ho
      subst hv
      cases o <;> cases r <;> simp [decode, ho, withOperandWord] at h <;> (obtain ⟨rfl, rfl⟩ := h; rfl)

theorem of_decode_unknownOpcode {ws : List Int} {v : Int} (h : decode ws = .unknownOpcode v) :
    (∃ rest, ws = v :: rest) ∧ ¬(0 ≤ v ∧ v ≤ 9) := by
  cases ws with
  | nil => cases h
  | cons u r =>
    cases ho : opcodeOf u with
    | none =>
      simp only [decode, ho, Decoded.unknownOpcode.injEq] at h
      subst h
      exact ⟨⟨r, rfl⟩, opcodeOf_eq_none.mp ho⟩
    | some o => cases o <;> cases r <;> simp [decode, ho, withOperandWord] at h

theorem of_decode_noOpcodeWord {ws : List Int} (h : decode ws = .noOpcodeWord) : ws = [] := by
  cases ws with
  | nil => rfl
  | cons v r =>
    cases ho : opcodeOf v with
    | none => simp [decode, ho] at h
    | some o => cases o <;> cases r <;> simp [decode, ho, withOperandWord] at h

theorem of_decode_noOperandWord {ws : List Int} (h : decode ws = .noOperandWord) :
    ∃ v, ws = [v] ∧ 1 ≤ v ∧ v ≤ 9 := by
  cases ws with
  | nil => cases h
  | cons v r =>
    cases ho : opcodeOf v with
    | none => simp [decode, ho] at h
    | some o =>
      have hv := eq_word_of_opcodeOf ho
      cases o <;> cases r <;> simp [decode, ho, withOperandWord] at h <;>
        exact ⟨v, rfl, by simp only [hv, Opcode.word]; omega, by simp only [hv, Opcode.word]; omega⟩

theorem encode_length_pos (i : Instr) : 0 < (encode i).length := by
  cases i <;> simp [encode]

theorem encode_length_of_ne_halt {i : Instr} (h : i ≠ .halt) : (encode i).length = 2 := by
  cases i <;> first | rfl | exact absurd rfl h

namespace Machine

/-- Where an instruction stands at PC there is room for it. -/
theorem pc_lt_of_instrAtPc {i : Instr} {s : State} (h : InstrAtPc i s) :
    s.pc < 4000 ∧ (i ≠ .halt → s.pc < 3999) := by
  have h0 := (h 0 (encode_length_pos i)).1
  simp only [Nat.cast_zero, add_zero, valid_iff] at h0
  refine ⟨by omega, fun hn => ?_⟩
  have h1 := (h 1 (by rw [encode_length_of_ne_halt hn]; omega)).1
  simp only [Nat.cast_one, valid_iff] at h1
  omega

/-- What stands at PC is what the fetched words decode to. -/
theorem instrAtPc_of_decode {i : Instr} {s : State} {rest : List Int}
    (h : decode (fetchWords s) = .instr i rest) : InstrAtPc i s := by
  have hw := eq_encode_of_decode h
  rw [fetchWords_eq] at hw
  intro k hk
  have e : (encode i)[k] = (encode i ++ rest)[k]'(by simp; omega) := by
    rw [List.getElem_append_left]
  have hk' : k < (encode i ++ rest).length := by simp; omega
  rw [e]
  by_cases h1 : s.pc < 3999
  · simp only [if_pos h1] at hw
    simp only [← hw, List.length_cons, List.length_nil] at hk' ⊢
    have hc : k = 0 ∨ k = 1 := by omega
    rcases hc with rfl | rfl <;> simp [valid_iff] <;> omega
  · by_cases h2 : s.pc = 3999
    · simp only [if_neg h1, if_pos h2] at hw
      simp only [← hw, List.length_cons, List.length_nil] at hk' ⊢
      have hc : k = 0 := by omega
      subst hc
      simp [valid_iff]
      omega
    · simp only [if_neg h1, if_neg h2] at hw
      simp only [← hw, List.length_nil] at hk'
      omega

/-- All that a meaning can do under a variant: its own effect, or an error entry. -/
inductive ExecOutcome (v : Variant) (i : Instr) (s : State) : State → Prop where
  | halted : i = .halt →
      ExecOutcome v i s { s with pc := s.pc + 1, status := { s.status with run := .halted } }
  | loaded (a : Int) : i = .loadA a → valid a = true →
      ExecOutcome v i s { s with a := memRead s a, pc := s.pc + 2 }
  | stored (a : Int) : i = .storeA a → valid a = true →
      ExecOutcome v i s { s with mem := Memory.write s.mem a.toNat s.a, pc := s.pc + 2 }
  | computed (a w : Int) : (i = .add a ∨ i = .sub a ∨ i = .div a) → valid a = true → isWord w = true →
      ExecOutcome v i s { s with a := w, pc := s.pc + 2 }
  | compared (a w : Int) : i = .compare a → valid a = true → isWord w = true →
      ExecOutcome v i s { s with cmp := w, pc := s.pc + 2 }
  | jumped (a : Int) :
      (i = .jump a ∨ (i = .jumpZero a ∧ condReg v.cond s = 0) ∨ (i = .jumpNeg a ∧ condReg v.cond s < 0)) →
      valid a = true → ExecOutcome v i s { s with pc := a.toNat }
  | passed (a : Int) :
      ((i = .jumpZero a ∧ condReg v.cond s ≠ 0) ∨ (i = .jumpNeg a ∧ ¬condReg v.cond s < 0)) →
      ExecOutcome v i s { s with pc := s.pc + 2 }
  | outOfRange (a : Int) : i.operand? = some a → valid a = false →
      ExecOutcome v i s (s.failedWith .outOfRange a)
  | dividedByZero (a : Int) : i = .div a → valid a = true → memRead s a = 0 →
      ExecOutcome v i s (s.failedWith .divideByZero a)
  | overflowed (a : Int) : v.overflow = .fault → i.operand? = some a → valid a = true →
      ExecOutcome v i s (s.failedWith .overflow a)

/-- A taken jump's outcome. -/
theorem jumpTo_outcome {v : Variant} {i : Instr} {a : Int} {s : State}
    (hi : i = .jump a ∨ (i = .jumpZero a ∧ condReg v.cond s = 0) ∨ (i = .jumpNeg a ∧ condReg v.cond s < 0))
    (ho : i.operand? = some a) : ∃ t, jumpTo a s = .next t ∧ ExecOutcome v i s t := by
  rcases jumpTo_cases (rfl : jumpTo a s = _) with ⟨hv, h⟩ | ⟨hv, h⟩
  · exact ⟨_, h, .jumped a hi hv⟩
  · exact ⟨_, h, .outOfRange a ho hv⟩

/-- The outcome of ADD, SUB and COMPARE from the outcome of their ALU operation. -/
theorem alu_outcome {v : Variant} {i : Instr} {a : Int} {s : State} {n : Int → Int} {put : Int → State}
    (ho : i.operand? = some a)
    (hput : ∀ w, valid a = true → isWord w = true → ExecOutcome v i s (put w)) :
    ∃ t, (withDataWord a s fun m => withAluResult v.overflow a (n m) s fun w => .next (put w)) = .next t ∧
      ExecOutcome v i s t := by
  rcases withDataWord_cases (a := a) (s := s)
    (k := fun m => withAluResult v.overflow a (n m) s fun w => .next (put w)) rfl with ⟨hv, h⟩ | ⟨hv, h⟩
  · rcases withAluResult_cases h.symm with ⟨w, _, hw, h'⟩ | ⟨_, hf, h'⟩
    · exact ⟨_, h', hput w hv hw⟩
    · exact ⟨_, h', .overflowed a hf ho hv⟩
  · exact ⟨_, h, .outOfRange a ho hv⟩

/-- Every meaning answers a next state, and this is all it can be. -/
theorem execUnder_outcome (v : Variant) (i : Instr) (s : State) :
    ∃ t, execUnder v i s = .next t ∧ ExecOutcome v i s t := by
  cases i with
  | halt => exact ⟨_, rfl, .halted rfl⟩
  | loadA a =>
    rcases withDataWord_cases (rfl : execLoadA a s = _) with ⟨hv, h⟩ | ⟨hv, h⟩
    · exact ⟨_, h, .loaded a rfl hv⟩
    · exact ⟨_, h, .outOfRange a rfl hv⟩
  | storeA a =>
    rcases withDataAddress_cases (rfl : execStoreA a s = _) with ⟨hv, h⟩ | ⟨hv, h⟩
    · exact ⟨_, h, .stored a rfl hv⟩
    · exact ⟨_, h, .outOfRange a rfl hv⟩
  | add a => exact alu_outcome rfl fun w hv hw => .computed a w (.inl rfl) hv hw
  | sub a => exact alu_outcome rfl fun w hv hw => .computed a w (.inr (.inl rfl)) hv hw
  | div a =>
    rcases withDataWord_cases (rfl : divUnder v.overflow a s = _) with ⟨hv, h⟩ | ⟨hv, h⟩
    · split at h
      · exact ⟨_, h, .dividedByZero a rfl hv (by assumption)⟩
      · rcases withAluResult_cases h.symm with ⟨w, _, hw, h'⟩ | ⟨_, hf, h'⟩
        · exact ⟨_, h', .computed a w (.inr (.inr rfl)) hv hw⟩
        · exact ⟨_, h', .overflowed a hf rfl hv⟩
    · exact ⟨_, h, .outOfRange a rfl hv⟩
  | jump a => exact jumpTo_outcome (.inl rfl) rfl
  | jumpZero a =>
    by_cases hc : condReg v.cond s = 0
    · have e : execUnder v (.jumpZero a) s = jumpTo a s := if_pos (by simp [condZero, hc])
      rw [e]
      exact jumpTo_outcome (.inr (.inl ⟨rfl, hc⟩)) rfl
    · exact ⟨_, if_neg (by simp [condZero, hc]), .passed a (.inl ⟨rfl, hc⟩)⟩
  | jumpNeg a =>
    by_cases hc : condReg v.cond s < 0
    · have e : execUnder v (.jumpNeg a) s = jumpTo a s := if_pos (by simp [condNegative, hc])
      rw [e]
      exact jumpTo_outcome (.inr (.inr ⟨rfl, hc⟩)) rfl
    · exact ⟨_, if_neg (by simpa [condNegative] using hc), .passed a (.inr ⟨rfl, hc⟩)⟩
  | compare a => exact alu_outcome rfl fun w hv hw => .compared a w rfl hv hw

/-- All that a step can do under a variant. -/
inductive StepOutcome (v : Variant) (s : State) : State → Prop where
  | stopped : s.status.run ≠ .running → StepOutcome v s s
  | executed (i : Instr) (t : State) : s.status.run = .running → InstrAtPc i s → ExecOutcome v i s t →
      StepOutcome v s t
  | unknownOpcode : s.status.run = .running → valid s.pc = true →
      ¬(0 ≤ memRead s s.pc ∧ memRead s s.pc ≤ 9) →
      StepOutcome v s (s.failedWith .unknownOpcode (memRead s s.pc))
  | noOpcodeWord : s.status.run = .running → 4000 ≤ s.pc →
      StepOutcome v s (s.failedWith .outOfRange s.pc)
  | noOperandWord : s.status.run = .running → s.pc = 3999 → 1 ≤ memRead s s.pc → memRead s s.pc ≤ 9 →
      StepOutcome v s (s.failedWith .outOfRange (s.pc + 1))

/-- Every step answers a next state, and this is all it can be. -/
theorem stepUnder_outcome (v : Variant) (s : State) : ∃ t, stepUnder v s = .next t ∧ StepOutcome v s t := by
  rcases sequencerStep_cases (rfl : stepUnder v s = _) with
    ⟨hr, h⟩ | ⟨hr, ⟨i, rest, hd, h⟩ | ⟨u, hd, h⟩ | ⟨hd, h⟩ | ⟨hd, h⟩⟩
  · exact ⟨_, h, .stopped hr⟩
  · obtain ⟨t, ht, ho⟩ := execUnder_outcome v i s
    exact ⟨t, h.trans ht, .executed i t hr (instrAtPc_of_decode hd) ho⟩
  · obtain ⟨⟨r, hw⟩, hu⟩ := of_decode_unknownOpcode hd
    rw [fetchWords_eq] at hw
    have hp : memRead s s.pc = u ∧ s.pc < 4000 := by
      split at hw
      · cases hw; exact ⟨rfl, by omega⟩
      · split at hw
        · cases hw; exact ⟨rfl, by omega⟩
        · cases hw
    obtain ⟨rfl, hp⟩ := hp
    exact ⟨_, h, .unknownOpcode hr (valid_iff.mpr (by omega)) hu⟩
  · have hw := of_decode_noOpcodeWord hd
    rw [fetchWords_eq] at hw
    refine ⟨_, h, .noOpcodeWord hr ?_⟩
    split at hw
    · cases hw
    · split at hw
      · cases hw
      · omega
  · obtain ⟨u, hw, h1, h9⟩ := of_decode_noOperandWord hd
    rw [fetchWords_eq] at hw
    split at hw
    · cases hw
    · split at hw
      · cases hw; exact ⟨_, h, .noOperandWord hr (by assumption) h1 h9⟩
      · cases hw

/-- The same of `step`. -/
theorem outcome_of_step {s t : State} (h : step s = .next t) : StepOutcome Config.variant s t := by
  rw [step_eq_stepUnder] at h
  obtain ⟨u, hu, ho⟩ := stepUnder_outcome Config.variant s
  rw [hu] at h
  cases h
  exact ho

end Machine

end Sys2Proof
end

