-- ==== Sys2Proof/Laws/HostPort.lean ====
section
/-! SUPPORT. Once for each accessor, all it can do. -/

namespace Sys2Proof.Machine

/-- A write accessor's answer: the new state and `ok`, or an error and the same state
(10_state.md R33). -/
theorem committed_cases {s : State} {e : Except ErrorKind State} {r : HostResult} {t : State}
    (h : committed s e = .next (r, t)) :
    (e = .ok t ∧ r = .ok) ∨ (∃ k, e = .error k ∧ r = .error k ∧ t = s) := by
  cases e with
  | ok u => simp only [committed, Host.Outcome.next.injEq, Prod.mk.injEq] at h; simp [h]
  | error k => simp only [committed, Host.Outcome.next.injEq, Prod.mk.injEq] at h; simp [h]

/-- A read accessor's answer: a word or an error, and the same state (10_state.md R30). -/
theorem returned_cases {s : State} {e : Except ErrorKind Int} {r : HostResult} {t : State}
    (h : returned s e = .next (r, t)) :
    t = s ∧ ((∃ w, e = .ok w ∧ r = .word w) ∨ (∃ k, e = .error k ∧ r = .error k)) := by
  cases e with
  | ok w => simp only [returned, Host.Outcome.next.injEq, Prod.mk.injEq] at h; simp [h]
  | error k => simp only [returned, Host.Outcome.next.injEq, Prod.mk.injEq] at h; simp [h]

/-- A step operation's answer: the step's next state with its response. -/
theorem responded_cases {o : Result} {r : HostResult} {t : State} (h : responded o = .next (r, t)) :
    o = .next t ∧ r = .response (response t) := by
  cases o with
  | next u => simp only [responded, Host.Outcome.next.injEq, Prod.mk.injEq] at h; simp [← h.2, ← h.1]
  | fault e => cases h
  | refused e => cases h

theorem validSelector_iff {k : Int} : validSelector k = true ↔ 0 ≤ k ∧ k < 6 := by
  have h : (Config.numIndex : Int) = 6 := rfl
  simp only [validSelector, h, Bool.and_eq_true, decide_eq_true_eq]

end Sys2Proof.Machine
end

