-- ==== Sys2Proof/Laws/PerInstr.lean ====
section
/-! SUPPORT. A statement about the syntax of every instruction, proved constructor by constructor. -/

namespace Sys2Proof.Laws.EncodingShape

/-- An instruction's first word is an opcode word 0..9 that selects an opcode, its other words are
exactly its operand, and every word of a well-formed instruction is a word (30_encoding.md R70, R72,
R73). -/
def Statement (i : Instr) : Prop :=
  ∃ v : Int, 0 ≤ v ∧ v ≤ 9 ∧ (opcodeOf v).isSome = true ∧ encode i = v :: i.operand?.toList ∧
    (i.wf = true → (encode i).all isWord = true)

theorem halt : Statement .halt :=
  ⟨0, by decide, by decide, rfl, rfl, fun _ => by decide⟩

/-- The shape of format F1: an opcode word and the operand. -/
theorem of_operand {i : Instr} {v a : Int} (h0 : 0 ≤ v) (h9 : v ≤ 9) (hv : (opcodeOf v).isSome = true)
    (he : encode i = [v, a]) (ho : i.operand? = some a) : Statement i := by
  refine ⟨v, h0, h9, hv, by rw [he, ho]; rfl, fun hwf => ?_⟩
  have hr := word_range
  have hvw : isWord v = true := isWord_iff.mpr ⟨by omega, by omega⟩
  simp only [Instr.wf, ho, Option.all_some] at hwf
  simp [he, hvw, hwf]

theorem loadA (a : Int) : Statement (.loadA a) :=
  of_operand (v := 1) (by decide) (by decide) rfl rfl rfl

theorem storeA (a : Int) : Statement (.storeA a) :=
  of_operand (v := 2) (by decide) (by decide) rfl rfl rfl

theorem add (a : Int) : Statement (.add a) :=
  of_operand (v := 3) (by decide) (by decide) rfl rfl rfl

theorem sub (a : Int) : Statement (.sub a) :=
  of_operand (v := 4) (by decide) (by decide) rfl rfl rfl

theorem div (a : Int) : Statement (.div a) :=
  of_operand (v := 5) (by decide) (by decide) rfl rfl rfl

theorem jump (a : Int) : Statement (.jump a) :=
  of_operand (v := 6) (by decide) (by decide) rfl rfl rfl

theorem jumpZero (a : Int) : Statement (.jumpZero a) :=
  of_operand (v := 7) (by decide) (by decide) rfl rfl rfl

theorem jumpNeg (a : Int) : Statement (.jumpNeg a) :=
  of_operand (v := 8) (by decide) (by decide) rfl rfl rfl

theorem compare (a : Int) : Statement (.compare a) :=
  of_operand (v := 9) (by decide) (by decide) rfl rfl rfl

end Sys2Proof.Laws.EncodingShape
end

