-- ==== Sys2Proof/Tests/Slice0.lean ====
section
/-! SUPPORT. The model's own tests. An expected value comes from the vector of spec/95_test_vectors.md
or the rule of spec/ that the comment names. -/

namespace Sys2Proof.Tests

open Sys2Proof Sys2Proof.Machine

/-- A RUNNING core: PC, A and the cells that are not 0, by rising address; all else as after reset. -/
def mkState (pc : Nat) (a : Int) (cells : Memory) : State :=
  { State.reset with pc := pc, a := a, mem := cells }

/-- The state after one step, for tests. -/
def after (s : State) : Option State :=
  match step s with
  | .next t => some t
  | .fault _ => none
  | .refused _ => none

theorem step_of_after {s t : State} (h : after s = some t) : step s = .next t := by
  unfold after at h; split at h <;> simp_all

/-- PC, A and STATUS after one step. -/
def seen (s : State) : Option (Nat × Int × Status) :=
  (after s).map fun t => (t.pc, t.a, t.status)

def ok : Status := { run := .running, err := .noError, info := 0 }

def failure (k : ErrorKind) (i : Int) : Status := { run := .failed, err := k, info := i }

/-! ### Well-formedness: an operand that is no word is refused -/

theorem test_wf_refuses_operand_above_range : (Instr.loadA (maxW + 1)).wf = false := by
  simpa [Instr.wf, Instr.operand?] using isWord_false_iff.mpr (.inr (by omega))

theorem test_wf_refuses_operand_below_range : (Instr.jumpNeg (minW - 1)).wf = false := by
  simpa [Instr.wf, Instr.operand?] using isWord_false_iff.mpr (.inl (by omega))

/-- 30_encoding.md R72: any word is an operand, negative or >= MEM_SIZE included. -/
theorem test_wf_accepts_words : (Instr.storeA (-1)).wf = true ∧ (Instr.storeA 4000).wf = true ∧
    Instr.halt.wf = true := by decide

/-! ### Decoding: one word for every constructor, from the opcode map of 30_encoding.md R73 -/

theorem test_decode_halt : decode [0b0, 9] = .instr .halt [9] := by decide
theorem test_decode_loadA : decode [0b1, 10] = .instr (.loadA 10) [] := by decide
theorem test_decode_storeA : decode [0b10, 12] = .instr (.storeA 12) [] := by decide
theorem test_decode_add : decode [0b11, 11] = .instr (.add 11) [] := by decide
theorem test_decode_sub : decode [0b100, 21] = .instr (.sub 21) [] := by decide
theorem test_decode_div : decode [0b101, -3] = .instr (.div (-3)) [] := by decide
theorem test_decode_jump : decode [0b110, 0] = .instr (.jump 0) [] := by decide
theorem test_decode_jumpZero : decode [0b111, 10] = .instr (.jumpZero 10) [] := by decide
theorem test_decode_jumpNeg : decode [0b1000, 4000] = .instr (.jumpNeg 4000) [] := by decide
theorem test_decode_compare : decode [0b1001, 11] = .instr (.compare 11) [] := by decide

/-- 30_encoding.md R75, 95_test_vectors.md SEQ5, SEQ6, S9. -/
theorem test_decode_unknown : decode [-1, 0] = .unknownOpcode (-1) ∧
    decode [10, 0] = .unknownOpcode 10 ∧ decode [42] = .unknownOpcode 42 := by decide

/-- The rows of spec/opcode_table.json by their numbers, with an operand word of zeros. -/
theorem test_decodeTableWord : (List.range 11).map (decodeTableWord 16) =
    [some .halt, some (.loadA 0), some (.storeA 0), some (.add 0), some (.sub 0), some (.div 0),
      some (.jump 0), some (.jumpZero 0), some (.jumpNeg 0), some (.compare 0), none] := by decide

/-- The last image of 95_test_vectors.md S8 (scenario C). -/
theorem test_decodeImage : decodeImage [1, 10, 9, 11, 7, 20, 0] =
    some [.loadA 10, .compare 11, .jumpZero 20, .halt] := by decide

/-! ### Steps -/

/-- LS5: an instruction that loads its own operand word. -/
theorem test_loadA : seen (mkState 6 0 [(6, 1), (7, 7)]) = some (8, 7, ok) := by decide
/-- LS2. -/
theorem test_loadA_out_of_range : seen (mkState 0 9 [(0, 1), (1, 4000)]) =
    some (0, 9, failure .outOfRange 4000) := by decide
/-- LS8: an instruction that overwrites its own opcode word. -/
theorem test_storeA : (after (mkState 2 0 [(2, 2), (3, 2)])).map (·.mem) = some [(3, 2)] := by decide
/-- LS7. -/
theorem test_storeA_out_of_range : after (mkState 2 5 [(2, 2), (3, 4000)]) =
    some { mkState 2 5 [(2, 2), (3, 4000)] with status := failure .outOfRange 4000 } := by decide
/-- AR2. -/
theorem test_add : seen (mkState 2 (-5) [(2, 3), (3, 30), (30, 3)]) = some (4, -2, ok) := by decide
/-- AR21. -/
theorem test_add_out_of_range : seen (mkState 2 5 [(2, 3), (3, -3)]) =
    some (2, 5, failure .outOfRange (-3)) := by decide
/-- AR7. -/
theorem test_sub : seen (mkState 2 (-3) [(2, 4), (3, 30), (30, -5)]) = some (4, 2, ok) := by decide
/-- AR11: toward zero, not toward minus infinity. -/
theorem test_div : seen (mkState 2 (-7) [(2, 5), (3, 30), (30, 2)]) = some (4, -3, ok) := by decide
/-- S4. -/
theorem test_div_by_zero : seen (mkState 2 5 [(2, 5), (3, 21)]) =
    some (2, 5, failure .divideByZero 21) := by decide
/-- CP2. -/
theorem test_compare : (after (mkState 2 3 [(2, 9), (3, 30), (30, 5)])).map (fun t => (t.cmp, t.a, t.pc)) =
    some (-2, 3, 4) := by decide
/-- CT6. -/
theorem test_jump : seen (mkState 8 0 [(8, 6), (9, 9)]) = some (9, 0, ok) := by decide
/-- CT4. -/
theorem test_jump_out_of_range : seen (mkState 8 0 [(8, 6), (9, -5)]) =
    some (8, 0, failure .outOfRange (-5)) := by decide
/-- CT12 and CT11: A is tested, not CMP. -/
theorem test_jumpZero_tests_a : seen { mkState 2 4 [(2, 7), (3, 10)] with cmp := 0 } = some (4, 4, ok) ∧
    seen { mkState 2 0 [(2, 7), (3, 10)] with cmp := 5 } = some (10, 0, ok) := by decide
/-- CT9: an invalid target is no error where the condition is false. -/
theorem test_jumpZero_untaken : seen (mkState 2 4 [(2, 7), (3, 4000)]) = some (4, 4, ok) := by decide
/-- CT13 and CT15. -/
theorem test_jumpNeg : seen (mkState 6 (-3) [(6, 8), (7, 10)]) = some (10, -3, ok) ∧
    seen (mkState 6 0 [(6, 8), (7, 10)]) = some (8, 0, ok) := by decide
/-- CT18. -/
theorem test_jumpNeg_out_of_range : seen (mkState 6 (-1) [(6, 8), (7, -1)]) =
    some (6, -1, failure .outOfRange (-1)) := by decide
/-- SEQ7. -/
theorem test_halt_at_last_word : seen (mkState 3999 0 []) =
    some (4000, 0, { run := .halted, err := .noError, info := 0 }) := by decide
/-- SEQ1. -/
theorem test_halt_after_reset : (after State.reset).map (·.pc) = some 1 := by decide

/-! ### The sequencer -/

/-- SEQ2, SEQ3, SEQ4, SEQ11. -/
theorem test_fetch_checks : seen (mkState 4000 0 []) = some (4000, 0, failure .outOfRange 4000) ∧
    seen (mkState 3999 0 [(3999, 1)]) = some (3999, 0, failure .outOfRange 4000) ∧
    seen (mkState 3999 0 [(3999, 42)]) = some (3999, 0, failure .unknownOpcode 42) ∧
    seen (mkState 3999 1 [(3999, 7)]) = some (3999, 1, failure .outOfRange 4000) := by decide

/-- SEQ10. -/
theorem test_failed_core_stays :
    (after { mkState 5 1 [] with status := failure .divideByZero 21 }).map response =
      some (.error .divideByZero 21) := by decide

/-- An instruction placed at PC is the one that runs: 41_arithmetic.md R111's corner case a = p. -/
theorem test_withFetchWord : (after (State.reset.withFetchWord 16 3)).map (fun t => (t.a, t.pc)) =
    some (3, 2) := by decide

/-! ### The ALU at the ends of the word range (95_test_vectors.md AR3, AR8, AR17, for every width) -/

theorem test_wrap_past_max : IsWrapOf minW (maxW + 1) :=
  ⟨⟨le_refl _, by have := word_range; omega⟩, by rw [word_modulus]; exact ⟨-1, by ring⟩⟩

theorem test_saturate_past_max : aluResult .saturate (maxW + 1) = some maxW := by
  have h : isWord (maxW + 1) = false := isWord_false_iff.mpr (.inr (by omega))
  simp [aluResult, h, saturateWord]

theorem test_fault_past_max : aluResult .fault (maxW + 1) = none :=
  aluResult_eq_none.mpr ⟨rfl, isWord_false_iff.mpr (.inr (by omega))⟩

/-- 41_arithmetic.md R116's table. -/
theorem test_truncDiv : truncDiv 7 2 = 3 ∧ truncDiv (-7) 2 = -3 ∧ truncDiv 7 (-2) = -3 ∧
    truncDiv (-7) (-2) = 3 ∧ truncDiv (-6) 3 = -2 ∧ truncDiv (-1) 2 = 0 ∧ truncDiv 0 (-5) = 0 := by
  decide

/-! ### The host port -/

/-- The state an operation leaves. -/
def left (op : HostOp) (s : State) : Option (HostResult × State) :=
  match perform op s with
  | .next r => some r
  | .fault _ => none
  | .refused _ => none

theorem perform_of_left {op : HostOp} {s : State} {r : HostResult × State} (h : left op s = some r) :
    perform op s = .next r := by
  unfold left at h; split at h <;> simp_all

/-- HP2, HP3, HP4. -/
theorem test_index_port :
    left (.writeRegister (.index 0) 7) State.reset =
      some (.ok, { State.reset with index := #v[7, 0, 0, 0, 0, 0] }) ∧
    left (.readRegister (.index 6)) State.reset = some (.error .indexOutOfRange, State.reset) ∧
    left (.writeRegister (.index (-1)) 1) State.reset = some (.error .indexOutOfRange, State.reset) := by
  decide

/-- HP6, HP7. -/
theorem test_set_program_counter :
    (left (.setProgramCounter 3999) State.reset).map (·.2.pc) = some 3999 ∧
    left (.setProgramCounter 4000) State.reset = some (.error .outOfRange, State.reset) := by decide

/-- HP9. -/
theorem test_load_program : (left (.loadProgram [1, 2, 3]) (mkState 0 0 [(1, 8), (5, 9)])).map (·.2.mem) =
    some [(0, 1), (1, 2), (2, 3), (5, 9)] := by decide

/-- HP8: an edit of a FAILED core is kept and restarts nothing. -/
theorem test_edit_of_failed_core :
    left (.write 21 2) { mkState 2 5 [] with status := failure .divideByZero 21 } =
      some (.ok, { mkState 2 5 [(21, 2)] with status := failure .divideByZero 21 }) := by decide

/-- S1 and S2. -/
theorem test_memory_port : left (.write 3999 (-1)) State.reset = some (.ok, mkState 0 0 [(3999, -1)]) ∧
    left (.read 3999) (mkState 0 0 [(3999, -1)]) = some (.word (-1), mkState 0 0 [(3999, -1)]) ∧
    left (.write 4000 1) State.reset = some (.error .outOfRange, State.reset) ∧
    left (.read (-1)) State.reset = some (.error .outOfRange, State.reset) := by decide

/-- Writing 0 takes the cell off the list. -/
theorem test_write_zero_unlists : left (.write 5 0) (mkState 0 0 [(4, 1), (5, 9), (6, 2)]) =
    some (.ok, mkState 0 0 [(4, 1), (6, 2)]) := by decide

/-! ### Witnesses: states and operands that meet the hypotheses of the statements -/

theorem test_reset_Inv : State.reset.Inv :=
  ⟨by decide, ⟨by decide, by decide, by decide, by decide, fun _ => rfl⟩, fun _ => ⟨rfl, rfl⟩, rfl⟩

/-- Data addresses and targets: the ends of the valid range and the first invalid ones. -/
theorem test_witness_addresses : valid 0 = true ∧ valid 3999 = true ∧ valid (-1) = false ∧
    valid 4000 = false := by decide

theorem test_witness_DecoderIsTotalOnOpcodeWords :
    ¬(0 ≤ (-1 : Int) ∧ (-1 : Int) ≤ 9) ∧ ¬(0 ≤ (10 : Int) ∧ (10 : Int) ≤ 9) := by decide

theorem test_witness_DecodeOfEncodeIsTheInstruction : (Instr.add maxW).wf = true ∧
    (Instr.jump minW).wf = true := by
  have := word_range
  simp only [Instr.wf, Instr.operand?, Option.all_some, isWord_iff]; omega

theorem test_witness_PlacedInstructionIsTheOneThatRuns :
    Memory.wf (mkState 3998 0 [(3998, 5)]).mem = true ∧ (Instr.add 4000).wf = true ∧
      (mkState 3998 0 [(3998, 5)]).pc + 1 < Config.memSize ∧
      (mkState 3998 0 [(3998, 5)]).status.run = .running := by decide

theorem test_witness_StepRunsTheDecodedInstruction :
    (mkState 3998 1 [(3998, 3), (3999, 5)]).status.run = .running ∧
    InstrAtPc (.add 5) (mkState 3998 1 [(3998, 3), (3999, 5)]) ∧
    decode (fetchWords (mkState 3998 1 [(3998, 3), (3999, 5)])) = .instr (.add 5) [] ∧
    InstrAtPc .halt (mkState 3999 0 []) := by
  unfold InstrAtPc; decide

theorem test_witness_StepChecksInTheOrderOfTheSpec :
    (mkState 4000 0 []).status.run = .running ∧ Config.memSize ≤ (mkState 4000 0 []).pc ∧
    (valid (mkState 3999 0 [(3999, 10)]).pc = true ∧ ¬(memRead (mkState 3999 0 [(3999, 10)]) 3999 ≤ 9)) ∧
    (valid (mkState 0 0 [(0, -1)]).pc = true ∧ ¬(0 ≤ memRead (mkState 0 0 [(0, -1)]) 0)) ∧
    ((mkState 3999 0 [(3999, 1)]).pc + 1 = Config.memSize ∧
      memRead (mkState 3999 0 [(3999, 1)]) 3999 = 1) ∧
    memRead (mkState 3999 0 [(3999, 9)]) 3999 = 9 := by decide

theorem test_witness_StoppedCoreRepeatsItsResponse :
    ({ State.reset with status := { run := .halted, err := .noError, info := 0 } } : State).status.run =
      .halted ∧
    ({ State.reset with status := failure .outOfRange 4000 } : State).status.run = .failed := by decide

/-- A step that answers each of the three responses. -/
theorem test_witness_ResponseTellsHowTheStepEnded :
    (after State.reset).map response = some .halted ∧
    (after (mkState 8 0 [(8, 6)])).map response = some .cont ∧
    (after (mkState 8 0 [(8, 6), (9, 4000)])).map response = some (.error .outOfRange 4000) := by decide

/-- A failing step of each kind that is latched. -/
theorem test_witness_FailingStepWritesOnlyStatus :
    (after (mkState 2 5 [(2, 5), (3, 21)])).map (·.status) = some (failure .divideByZero 21) ∧
    (after (mkState 4000 5 [])).map (·.status) = some (failure .outOfRange 4000) ∧
    (after (mkState 0 5 [(0, -1)])).map (·.status) = some (failure .unknownOpcode (-1)) := by decide

/-- One failing step for each cause: no opcode word, no operand word, a data address and a taken jump out
of range, an unknown opcode, a zero divisor. -/
theorem test_witness_LatchedErrorNamesItsCause :
    [mkState 4000 5 [], mkState 3999 1 [(3999, 7)], mkState 2 5 [(2, 2), (3, 4000)],
      mkState 2 0 [(2, 7), (3, 4000)], mkState 6 (-1) [(6, 8), (7, -1)], mkState 0 5 [(0, 10)],
      mkState 2 5 [(2, 5), (3, 21)]].map (fun s => (after s).map (·.status)) =
    [some (failure .outOfRange 4000), some (failure .outOfRange 4000), some (failure .outOfRange 4000),
      some (failure .outOfRange 4000), some (failure .outOfRange (-1)), some (failure .unknownOpcode 10),
      some (failure .divideByZero 21)] := by decide

/-- The last cause: an ADD that overflows under the Fault policy (60_exceptions.md R184). -/
theorem test_witness_LatchedErrorNamesItsCause_overflow :
    stepUnder { overflow := .fault, cond := .a } (mkState 2 maxW [(2, 3), (3, 30), (30, 1)]) =
      .next { mkState 2 maxW [(2, 3), (3, 30), (30, 1)] with status := failure .overflow 30 } := by
  show withAluResult .fault 30 (maxW + 1) _ _ = _
  unfold withAluResult
  rw [test_fault_past_max]
  rfl

theorem test_witness_NextPcIsThatOfTheTable :
    InstrAtPc (.jumpZero 3999) (mkState 2 0 [(2, 7), (3, 3999)]) ∧
    (∃ t, stepUnder { overflow := .fault, cond := .cmp } (mkState 2 0 [(2, 7), (3, 3999)]) = .next t ∧
      t.status.run ≠ .failed) := by
  refine ⟨by unfold InstrAtPc; decide, mkState 3999 0 [(2, 7), (3, 3999)], ?_, by decide⟩
  rfl

theorem test_witness_PcReachesMemSizeOnlyByAdvance :
    (decode (fetchWords (mkState 3998 1 [(3998, 3), (3999, 5)])) = .instr (.add 5) [] ∧
      seen (mkState 3998 1 [(3998, 3), (3999, 5)]) = some (4000, 1, ok)) ∧
    (decode (fetchWords (mkState 3999 1 [])) = .instr .halt [] ∧
      (after (mkState 3999 1 [])).map (·.pc) = some 4000) ∧
    seen (mkState 3998 1 [(3998, 7), (3999, 4000)]) = some (4000, 1, ok) ∧
    seen (mkState 3998 0 [(3998, 8), (3999, 4000)]) = some (4000, 0, ok) := by decide

theorem test_witness_EveryStepKeepsTheInvariant :
    State.reset.Inv ∧ ∃ t, step State.reset = .next t :=
  ⟨test_reset_Inv, _, rfl⟩

theorem test_witness_EveryHostOperationKeepsTheInvariant :
    State.reset.Inv ∧ (HostOp.write 3999 (-1)).wf = true ∧
      perform (.write 3999 (-1)) State.reset = .next (.ok, mkState 0 0 [(3999, -1)]) :=
  ⟨test_reset_Inv, by decide, perform_of_left (by decide)⟩

theorem test_witness_MemoriesThatReadAlikeAreEqual :
    Memory.wf [(0, 1), (3999, -1)] = true ∧ Memory.wf [(4000, 1)] = false ∧
      Memory.wf [(3, 1), (3, 2)] = false ∧ Memory.wf [(3, 0)] = false := by decide

/-- Instructions whose operand names one of their own words. -/
theorem test_witness_LoadALoadsTheAccumulator_JumpAssignsThePc :
    InstrAtPc (.loadA 3998) (mkState 3998 0 [(3998, 1), (3999, 3998)]) ∧
    InstrAtPc (.loadA 3999) (mkState 3998 0 [(3998, 1), (3999, 3999)]) ∧
    InstrAtPc (.jump 0) (mkState 0 0 [(0, 6)]) ∧
    InstrAtPc (.jump 3999) (mkState 3998 0 [(3998, 6), (3999, 3999)]) ∧
    (mkState 3998 0 [(3998, 6), (3999, 3999)]).status.run = .running := by
  unfold InstrAtPc; decide

theorem test_witness_StoreAStoresTheAccumulator :
    Memory.wf (mkState 2 5 [(2, 2), (3, 3999)]).mem = true ∧ valid 3999 = true ∧ valid 4000 = false := by
  decide

theorem test_witness_DivWritesTheTruncatedQuotient :
    memRead (mkState 2 5 [(30, 2)]) 30 ≠ 0 ∧ valid 30 = true ∧ memRead (mkState 2 5 [(30, 2)]) 3999 = 0 ∧
      valid 3999 = true := by decide

theorem test_witness_HaltStopsTheCore :
    (mkState 3999 7 []).status.run = .running ∧ valid (mkState 3999 7 []).pc = true ∧
      memRead (mkState 3999 7 []) 3999 = 0 := by decide

/-- A = -1, 0 and 1: the conditions where they meet. -/
theorem test_witness_conditional_jumps : (mkState 0 (-1) []).a < 0 ∧ (mkState 0 0 []).a = 0 ∧
    0 ≤ (mkState 0 0 []).a ∧ (mkState 0 1 []).a ≠ 0 ∧ valid 3999 = true ∧ valid 4000 = false := by decide

theorem test_witness_AluResultFollowsThePolicy :
    (minW ≤ maxW ∧ maxW ≤ maxW) ∧ maxW < maxW + 1 ∧ minW - 1 < minW := by
  have := word_range; omega

/-- An addition that overflows, and one that does not, under the Fault policy. -/
theorem test_witness_ArithmeticUnderEveryPolicy :
    valid 30 = true ∧ (mkState 2 maxW [(30, 1)]).a + memRead (mkState 2 maxW [(30, 1)]) 30 = maxW + 1 ∧
      aluResult .fault (maxW + 1) = none ∧ aluResult .fault 3 = some 3 ∧
      memRead (mkState 2 maxW [(30, 1)]) 30 ≠ 0 :=
  ⟨by decide, rfl, test_fault_past_max, by decide, by decide⟩

theorem test_witness_AluInstructionsWriteOnlyTheirRegister :
    (∃ t, execUnder { overflow := .saturate, cond := .a } (.add 0) (mkState 2 5 []) = .next t) ∧
    ∃ t, execUnder { overflow := .fault, cond := .a } (.compare 4000) (mkState 2 5 []) = .next t :=
  ⟨⟨_, rfl⟩, _, rfl⟩

theorem test_witness_OnlyMinWordByMinusOneOverflowsInDiv :
    isWord minW = true ∧ isWord (-1) = true ∧ (-1 : Int) ≠ 0 ∧ valid 30 = true ∧
      (mkState 2 minW [(30, -1)]).a = minW ∧ memRead (mkState 2 minW [(30, -1)]) 30 = -1 :=
  ⟨by have := word_range; rw [isWord_iff]; omega, by decide, by decide, by decide, rfl, rfl⟩

/-- A COMPARE of words that overflows (95_test_vectors.md CP4) and one that does not. -/
theorem test_witness_CompareSignTellsTheOrderUnlessItOverflows :
    valid 30 = true ∧ isWord (mkState 2 maxW [(30, -1)]).a = true ∧
      isWord (memRead (mkState 2 maxW [(30, -1)]) 30) = true ∧
      isWord ((mkState 2 maxW [(30, -1)]).a - memRead (mkState 2 maxW [(30, -1)]) 30) = false ∧
      isWord ((mkState 2 4 [(30, 4)]).a - memRead (mkState 2 4 [(30, 4)]) 30) = true ∧
      ∃ t, exec (.compare 30) (mkState 2 maxW [(30, -1)]) = .next t := by
  have hr := word_range
  refine ⟨by decide, ?_, by decide, ?_, by decide, ?_⟩
  · show isWord maxW = true; rw [isWord_iff]; omega
  · show isWord (maxW - -1) = false; rw [isWord_false_iff]; omega
  · obtain ⟨w, hw⟩ := aluResult_normative (maxW - -1)
    refine ⟨advance 2 ((mkState 2 maxW [(30, -1)]).setCmp w), ?_⟩
    show withAluResult _ _ (maxW - -1) _ _ = _
    unfold withAluResult
    rw [hw]

theorem test_witness_EachPieceOfStateHasOnlyItsWriters :
    Memory.wf (mkState 2 5 [(2, 2), (3, 3999)]).mem = true ∧
      (mkState 2 5 [(2, 2), (3, 3999)]).status.run = .running ∧
      step (mkState 2 5 [(2, 2), (3, 3999)]) = .next (mkState 4 5 [(2, 2), (3, 3999), (3999, 5)]) :=
  ⟨by decide, by decide, step_of_after (by decide)⟩

theorem test_witness_NoStepReadsXIndexOrCmp :
    step (mkState 2 3 [(2, 9), (3, 30), (30, 5)]) =
      .next { mkState 4 3 [(2, 9), (3, 30), (30, 5)] with cmp := -2 } :=
  step_of_after (by decide)

/-- A STORE-A to the next opcode word: A = 42 and A = 0 (95_test_vectors.md LS9), and to its own words. -/
theorem test_witness_StoredWordIsSeenByTheNextFetch :
    (Memory.wf (mkState 2 42 [(2, 2), (3, 4)]).mem = true ∧
      (mkState 2 42 [(2, 2), (3, 4)]).status.run = .running ∧
      InstrAtPc (.storeA 4) (mkState 2 42 [(2, 2), (3, 4)]) ∧ valid 4 = true ∧
      ¬(mkState 2 42 [(2, 2), (3, 4)]).a ≤ 9) ∧
    (InstrAtPc (.storeA 4) (mkState 2 0 [(2, 2), (3, 4)]) ∧ (mkState 2 0 [(2, 2), (3, 4)]).a = 0) ∧
    InstrAtPc (.storeA 2) (mkState 2 0 [(2, 2), (3, 2)]) := by
  unfold InstrAtPc; decide

/-- A run that ends in Halted and one that ends in an error. -/
theorem test_witness_RunEndsAtTheFirstStop_RunHasAtMostOneEnd :
    State.reset.status.run = .running ∧ (∃ t, RunEnds State.reset .halted t) ∧
      ∃ t, RunEnds (mkState 0 0 [(0, 6), (1, 4000)]) (.error .outOfRange 4000) t :=
  ⟨rfl, ⟨_, 1, rfl⟩, _, 1, rfl⟩

theorem test_witness_JumpToItselfNeverEnds :
    (mkState 3998 0 [(3998, 6), (3999, 3998)]).status.run = .running ∧
      InstrAtPc (.jump (mkState 3998 0 [(3998, 6), (3999, 3998)]).pc)
        (mkState 3998 0 [(3998, 6), (3999, 3998)]) := by
  unfold InstrAtPc; decide

theorem test_witness_RegisterPortReadsAndWritesOneRegister : isWord maxW = true ∧
    ¬(0 ≤ (-1 : Int) ∧ (-1 : Int) < Config.numIndex) ∧ ¬(0 ≤ (6 : Int) ∧ (6 : Int) < Config.numIndex) :=
  ⟨by have := word_range; rw [isWord_iff]; omega, by decide, by decide⟩

theorem test_witness_MemoryPortReadsBackWhatItWrote : Memory.wf State.reset.mem = true ∧
    isWord (-1) = true ∧ valid 3999 = true ∧ valid 0 = true ∧ valid 4000 = false := by decide

theorem test_witness_LoadedProgramStandsAtItsIndices : Memory.wf State.reset.mem = true ∧
    (List.replicate 4000 (0 : Int)).length ≤ Config.memSize ∧
    Config.memSize < (List.replicate 4001 (0 : Int)).length := by
  rw [List.length_replicate, List.length_replicate]; decide

theorem test_witness_FailedHostOperationChangesNothing :
    perform (.write 4000 1) State.reset = .next (.error .outOfRange, State.reset) :=
  perform_of_left (by decide)

theorem test_witness_OnlyResetRestartsAStoppedCore :
    ({ State.reset with status := failure .outOfRange 4000 } : State).status.run ≠ .running ∧
      HostOp.step ≠ .reset ∧
      perform .step { State.reset with status := failure .outOfRange 4000 } =
        .next (.response (.error .outOfRange 4000),
          { State.reset with status := failure .outOfRange 4000 }) :=
  ⟨by decide, by decide, perform_of_left (by decide)⟩

end Sys2Proof.Tests
end

section
/-! The pieces of state that no instruction reads (10_state.md R22, R23, R25): a step is followed from
two states that differ in X, the index registers and CMP only. One rule per shared operation of the
meanings, then one case per instruction, then the step. -/

namespace Sys2Proof.Machine

/-- The state with other values of X, the index registers and CMP. -/
def State.withUnread (x : Int) (ix : Vector Int Config.numIndex) (c : Int) (s : State) : State :=
  { s with x := x, index := ix, cmp := c }

/-- The results `r` from `s` and `r'` from the state with the other values `x`, `ix` and `c` are next
states that differ in X, the index registers and CMP only; and CMP is either kept in both, or it has
one value in both, which is possible only under `wrote`. -/
def Agree (x : Int) (ix : Vector Int Config.numIndex) (c : Int) (s : State) (wrote : Prop)
    (r r' : Result) : Prop :=
  ∃ t c', r = .next t ∧ r' = .next (t.withUnread x ix c') ∧
    ((c' = c ∧ t.cmp = s.cmp) ∨ (c' = t.cmp ∧ wrote))

section Unread

variable {x : Int} {ix : Vector Int Config.numIndex} {c : Int} {s : State} {wrote : Prop}

@[simp] theorem withUnread_a : (s.withUnread x ix c).a = s.a := rfl
@[simp] theorem withUnread_pc : (s.withUnread x ix c).pc = s.pc := rfl
@[simp] theorem withUnread_status : (s.withUnread x ix c).status = s.status := rfl
@[simp] theorem withUnread_mem : (s.withUnread x ix c).mem = s.mem := rfl
@[simp] theorem memRead_withUnread (a : Int) : memRead (s.withUnread x ix c) a = memRead s a := rfl
@[simp] theorem fetchWords_withUnread : fetchWords (s.withUnread x ix c) = fetchWords s := rfl

/-- COND_SRC = A: the conditional jumps do not test CMP (90_conflicts.md C1). -/
@[simp] theorem condReg_a_withUnread : condReg .a (s.withUnread x ix c) = condReg .a s := rfl

/-- An update that writes none of the three pieces of state. -/
theorem agree_of_kept {u : State} (h : u.cmp = s.cmp) :
    Agree x ix c s wrote (.next u) (.next (u.withUnread x ix c)) :=
  ⟨u, c, rfl, rfl, .inl ⟨rfl, h⟩⟩

theorem agree_raise (k : ErrorKind) (info : Int) :
    Agree x ix c s wrote (.next (raise k info s)) (.next (raise k info (s.withUnread x ix c))) :=
  agree_of_kept (raise_cmp s k info)

theorem agree_jumpTo (a : Int) :
    Agree x ix c s wrote (jumpTo a s) (jumpTo a (s.withUnread x ix c)) := by
  unfold jumpTo
  split
  · exact agree_of_kept (setPc_cmp s a.toNat)
  · exact agree_raise .outOfRange a

theorem agree_withDataAddress (a : Int) {k k' : Result} (h : Agree x ix c s wrote k k') :
    Agree x ix c s wrote (withDataAddress a s k) (withDataAddress a (s.withUnread x ix c) k') := by
  unfold withDataAddress
  split
  · exact h
  · exact agree_raise .outOfRange a

theorem agree_withDataWord (a : Int) {k k' : Int → Result}
    (h : ∀ m, Agree x ix c s wrote (k m) (k' m)) :
    Agree x ix c s wrote (withDataWord a s k) (withDataWord a (s.withUnread x ix c) k') :=
  agree_withDataAddress a (h (memRead s a))

theorem agree_withAluResult (p : OverflowPolicy) (a n : Int) {k k' : Int → Result}
    (h : ∀ w, Agree x ix c s wrote (k w) (k' w)) :
    Agree x ix c s wrote (withAluResult p a n s k)
      (withAluResult p a n (s.withUnread x ix c) k') := by
  unfold withAluResult
  cases aluResult p n with
  | some w => exact h w
  | none => exact agree_raise .overflow a

/-- The write that ends ADD, SUB and DIV. -/
theorem agree_setA (w : Int) :
    Agree x ix c s wrote (.next (advance 2 (s.setA w)))
      (.next (advance 2 ((s.withUnread x ix c).setA w))) :=
  agree_of_kept rfl

/-- The write that ends COMPARE: the one that puts the same CMP into both states. -/
theorem agree_setCmp (hw : wrote) (w : Int) :
    Agree x ix c s wrote (.next (advance 2 (s.setCmp w)))
      (.next (advance 2 ((s.withUnread x ix c).setCmp w))) :=
  ⟨_, w, rfl, rfl, .inr ⟨rfl, hw⟩⟩

/-- A jump under a condition that both states answer alike. -/
theorem agree_conditionalJump (b : Bool) (a : Int) :
    Agree x ix c s wrote (if b then jumpTo a s else .next (advance 2 s))
      (if b then jumpTo a (s.withUnread x ix c) else .next (advance 2 (s.withUnread x ix c))) := by
  cases b with
  | true => exact agree_jumpTo a
  | false => exact agree_of_kept (advance_cmp s 2)

/-- No meaning reads X or the index registers, nor CMP where COND_SRC is A, under any overflow
policy; only a COMPARE writes CMP. -/
theorem agree_execUnder {v : Variant} (hv : v.cond = .a) (i : Instr) :
    Agree x ix c s (∃ a, i = .compare a) (execUnder v i s) (execUnder v i (s.withUnread x ix c)) := by
  cases i with
  | halt => exact agree_of_kept rfl
  | loadA a => exact agree_withDataWord a agree_setA
  | storeA a => exact agree_withDataAddress a (agree_of_kept rfl)
  | add a =>
    exact agree_withDataWord a fun m => agree_withAluResult v.overflow a (s.a + m) agree_setA
  | sub a =>
    exact agree_withDataWord a fun m => agree_withAluResult v.overflow a (s.a - m) agree_setA
  | div a =>
    simp only [execUnder, divUnder, withUnread_a]
    refine agree_withDataWord a fun d => ?_
    by_cases hd : d = 0
    · simp only [if_pos hd]
      exact agree_raise .divideByZero a
    · simp only [if_neg hd]
      exact agree_withAluResult v.overflow a (truncDiv s.a d) agree_setA
  | jump a => exact agree_jumpTo a
  | jumpZero a =>
    simp only [execUnder, jumpZeroUnder, hv, condZero, condReg_a_withUnread]
    exact agree_conditionalJump _ a
  | jumpNeg a =>
    simp only [execUnder, jumpNegUnder, hv, condNegative, condReg_a_withUnread]
    exact agree_conditionalJump _ a
  | compare a =>
    exact agree_withDataWord a fun m =>
      agree_withAluResult v.overflow a (compareDifference s m) (agree_setCmp ⟨a, rfl⟩)

/-- The sequencer reads none of the three: both states fetch and check alike. -/
theorem agree_sequencerStep {execute : Instr → State → Result}
    (hex : ∀ i, Agree x ix c s (∃ a, i = .compare a) (execute i s)
      (execute i (s.withUnread x ix c))) :
    Agree x ix c s (∃ a, InstrAtPc (.compare a) s) (sequencerStep execute s)
      (sequencerStep execute (s.withUnread x ix c)) := by
  unfold sequencerStep
  simp only [withUnread_status, withUnread_pc, fetchWords_withUnread]
  cases s.status.run with
  | halted => exact agree_of_kept rfl
  | failed => exact agree_of_kept rfl
  | running =>
    cases hd : decode (fetchWords s) with
    | instr i rest =>
      obtain ⟨t, c', ht, ht', hkept | ⟨hcmp, a, rfl⟩⟩ := hex i
      · exact ⟨t, c', ht, ht', .inl hkept⟩
      · exact ⟨t, c', ht, ht', .inr ⟨hcmp, a, instrAtPc_of_decode hd⟩⟩
    | unknownOpcode v => exact agree_raise .unknownOpcode v
    | noOpcodeWord => exact agree_raise .outOfRange s.pc
    | noOperandWord => exact agree_raise .outOfRange (s.pc + 1)

theorem agree_step :
    Agree x ix c s (∃ a, InstrAtPc (.compare a) s) (step s) (step (s.withUnread x ix c)) := by
  rw [step_eq_stepUnder, step_eq_stepUnder]
  exact agree_sequencerStep (agree_execUnder rfl)

end Unread

/-- Settles O40: both steps are followed side by side through every check and every meaning. -/
theorem noStepReadsXIndexOrCmp : Obligations.NoStepReadsXIndexOrCmp := by
  intro s t x c ix ht
  obtain ⟨u, c', hu, hu', hcmp⟩ := agree_step (x := x) (ix := ix) (c := c) (s := s)
  obtain rfl : u = t := by simpa [hu] using ht
  exact ⟨c', hu', hcmp⟩

end Sys2Proof.Machine
end

section
/-! The host's port (10_state.md section 5): what each operation on registers, PC and STATUS answers. -/

namespace Sys2Proof.Machine

@[simp] theorem returned_ok (s : State) (w : Int) : returned s (.ok w) = .next (.word w, s) := rfl
@[simp] theorem returned_error (s : State) (k : ErrorKind) :
    returned s (.error k) = .next (.error k, s) := rfl
@[simp] theorem committed_ok (s t : State) : committed s (.ok t) = .next (.ok, t) := rfl
@[simp] theorem committed_error (s : State) (k : ErrorKind) :
    committed s (.error k) = .next (.error k, s) := rfl

@[simp] theorem perform_readRegister (r : RegName) (s : State) :
    perform (.readRegister r) s = returned s (readRegister r s) := rfl
@[simp] theorem perform_writeRegister (r : RegName) (v : Int) (s : State) :
    perform (.writeRegister r v) s = committed s (writeRegister r v s) := rfl
@[simp] theorem perform_setProgramCounter (a : Int) (s : State) :
    perform (.setProgramCounter a) s = committed s (setProgramCounter a s) := rfl

/-- The selectors that name an index register are those of the register file (10_state.md R23). -/
theorem validSelector_fin (k : Fin Config.numIndex) : validSelector (k : Nat) = true := by
  have hk : (k : Nat) < 6 := k.isLt
  rw [validSelector_iff]
  omega

theorem validSelector_eq_false {k : Int} (h : ¬(0 ≤ k ∧ k < Config.numIndex)) :
    validSelector k = false :=
  eq_false_of_ne_true (mt validSelector_iff.mp h)

theorem readIndex_fin (s : State) (k : Fin Config.numIndex) :
    readIndex s (k : Nat) = s.index[k] := by
  simp [readIndex]

/-- A write to an index register is seen by that register only (10_state.md R24). -/
theorem writeIndex_index_fin (s : State) (v : Int) (k j : Fin Config.numIndex) :
    (writeIndex (k : Nat) v s).index[j] = if j = k then v else s.index[j] := by
  simp [Vector.getElem_setIfInBounds, Fin.ext_iff, eq_comm (a := (k : Nat))]

theorem readRegister_index_fin (s : State) (k : Fin Config.numIndex) :
    readRegister (.index (k : Nat)) s = .ok s.index[k] := by
  rw [readRegister, if_pos (validSelector_fin k), readIndex_fin]

theorem writeRegister_index_fin (s : State) (v : Int) (k : Fin Config.numIndex) :
    writeRegister (.index (k : Nat)) v s = .ok (writeIndex (k : Nat) v s) :=
  if_pos (validSelector_fin k)

theorem readRegister_index_invalid (s : State) {k : Int} (h : validSelector k = false) :
    readRegister (.index k) s = .error .indexOutOfRange := by
  simp [readRegister, h]

theorem writeRegister_index_invalid (s : State) (v : Int) {k : Int} (h : validSelector k = false) :
    writeRegister (.index k) v s = .error .indexOutOfRange := by
  simp [writeRegister, h]

theorem setProgramCounter_valid (s : State) {a : Int} (h : valid a = true) :
    setProgramCounter a s = .ok (s.setPc a.toNat) :=
  if_pos h

theorem setProgramCounter_invalid (s : State) {a : Int} (h : valid a = false) :
    setProgramCounter a s = .error .outOfRange := by
  simp [setProgramCounter, h]

/-- A write accessor that answers an error leaves the state (10_state.md R33). -/
theorem eq_of_committed_error {s t : State} {e : Except ErrorKind State} {k : ErrorKind}
    (h : committed s e = .next (.error k, t)) : t = s := by
  rcases committed_cases h with ⟨_, hok⟩ | ⟨_, _, _, hts⟩
  · cases hok
  · exact hts

/-- Settles O46: A and X by the port's equations, the index registers by the selector check. -/
theorem registerPortReadsAndWritesOneRegister : Obligations.RegisterPortReadsAndWritesOneRegister := by
  intro s v _
  refine ⟨rfl, rfl, rfl, rfl, fun k => ⟨?_, writeIndex (k : Nat) v s, ?_, rfl, ?_⟩, fun k hk => ?_⟩
  · rw [perform_readRegister, readRegister_index_fin, returned_ok]
  · rw [perform_writeRegister, writeRegister_index_fin, committed_ok]
  · exact writeIndex_index_fin s v k
  · have hsel := validSelector_eq_false hk
    simp [readRegister_index_invalid s hsel, writeRegister_index_invalid s v hsel]

/-- Settles O50, operation by operation: a read returns its own state, a write that fails commits
nothing, and reset and step answer no error. -/
theorem failedHostOperationChangesNothing : Obligations.FailedHostOperationChangesNothing := by
  intro op s t kind h
  cases op with
  | reset => cases h
  | loadProgram words => exact eq_of_committed_error h
  | step => cases (responded_cases h).2
  | read a => exact (returned_cases h).1
  | write a v => exact eq_of_committed_error h
  | readRegister r => exact (returned_cases h).1
  | writeRegister r v => exact eq_of_committed_error h
  | setProgramCounter a => exact eq_of_committed_error h
  | inspectCmp => cases h
  | inspectPc => cases h
  | inspectStatus => cases h

/-- Settles O16: each code is the value of its equation. -/
theorem statusCodesAreThoseOfTheSpec : Obligations.StatusCodesAreThoseOfTheSpec :=
  ⟨rfl, rfl, rfl, rfl, rfl, rfl, rfl, rfl, rfl, rfl⟩

/-- Settles O45: only the index registers are read behind a check, which every selector 0..5 passes. -/
theorem inspectionReadsHaveNoSideEffects : Obligations.InspectionReadsHaveNoSideEffects := by
  intro s
  refine ⟨rfl, rfl, fun k => ?_, rfl, rfl, rfl⟩
  rw [perform_readRegister, readRegister_index_fin, returned_ok]

/-- Settles O48, by the accessor's two cases. -/
theorem setProgramCounterSetsOnlyThePc : Obligations.SetProgramCounterSetsOnlyThePc := by
  intro s a
  refine ⟨fun hv => ?_, fun hv => ?_⟩
  · rw [perform_setProgramCounter, setProgramCounter_valid s hv, committed_ok]
    rfl
  · rw [perform_setProgramCounter, setProgramCounter_invalid s hv, committed_error]

end Sys2Proof.Machine
end

section
/-! The writers' column of the state table (10_state.md R20): for each piece of state, the meanings that
write it; and that a step of a RUNNING core is either a meaning or an error entry, which writes only
STATUS. -/

namespace Sys2Proof.Machine

section Writers

variable {v : Variant} {i : Instr} {s t : State}

theorem a_eq_or_writer (h : ExecOutcome v i s t) :
    t.a = s.a ∨ ∃ a, i = .loadA a ∨ i = .add a ∨ i = .sub a ∨ i = .div a := by
  cases h with
  | loaded a hi => exact .inr ⟨a, .inl hi⟩
  | computed a _ hi => exact .inr ⟨a, .inr hi⟩
  | _ => exact .inl rfl

theorem x_index_eq_of_execOutcome (h : ExecOutcome v i s t) : t.x = s.x ∧ t.index = s.index := by
  cases h <;> exact ⟨rfl, rfl⟩

theorem cmp_eq_or_writer (h : ExecOutcome v i s t) : t.cmp = s.cmp ∨ ∃ a, i = .compare a := by
  cases h with
  | compared a _ hi => exact .inr ⟨a, hi⟩
  | _ => exact .inl rfl

theorem mem_eq_or_writer (h : ExecOutcome v i s t) :
    t.mem = s.mem ∨ ∃ b : Nat, i = .storeA b ∧ t.mem = Memory.write s.mem b s.a := by
  cases h with
  | stored a hi ha =>
    have hcast : (a.toNat : Int) = a := Int.toNat_of_nonneg (valid_iff.mp ha).1
    exact .inr ⟨a.toNat, by rw [hcast, hi], rfl⟩
  | _ => exact .inl rfl

/-- A cell that reads otherwise after an instruction is the one that a STORE-A names (20_memory.md
R52). -/
theorem read_eq_or_writer (hm : Memory.wf s.mem = true) (h : ExecOutcome v i s t) (b : Nat) :
    Memory.read t.mem b = Memory.read s.mem b ∨ (i = .storeA b ∧ Memory.read t.mem b = s.a) := by
  rcases mem_eq_or_writer h with hmem | ⟨c, hi, hmem⟩
  · exact .inl (by rw [hmem])
  · rw [hmem, read_write hm]
    by_cases hb : b = c
    · exact .inr ⟨by rw [hi, hb], if_pos hb⟩
    · exact .inl (if_neg hb)

theorem status_eq_or_writer (h : ExecOutcome v i s t) :
    t.status = s.status ∨ i = .halt ∨ t.status.run = .failed := by
  cases h with
  | halted hi => exact .inr (.inl hi)
  | outOfRange | dividedByZero | overflowed => exact .inr (.inr rfl)
  | _ => exact .inl rfl

/-- A step of a RUNNING core executes the instruction at PC, or its fetch fails. -/
theorem executed_or_failed_of_running (hr : s.status.run = .running) (h : StepOutcome v s t) :
    (∃ i, InstrAtPc i s ∧ ExecOutcome v i s t) ∨ ∃ kind info, t = s.failedWith kind info := by
  cases h with
  | stopped hstop => exact absurd hr hstop
  | executed i _ _ hi ho => exact .inl ⟨i, hi, ho⟩
  | unknownOpcode | noOpcodeWord | noOperandWord => exact .inr ⟨_, _, rfl⟩

end Writers

/-- Settles O39: a failed fetch writes STATUS only, and the instruction at PC only what its outcome
allows, piece by piece. -/
theorem eachPieceOfStateHasOnlyItsWriters : Obligations.EachPieceOfStateHasOnlyItsWriters := by
  intro s t hm hr ht
  rcases executed_or_failed_of_running hr (outcome_of_step ht) with ⟨i, hi, ho⟩ | ⟨kind, info, rfl⟩
  · obtain ⟨hx, hindex⟩ := x_index_eq_of_execOutcome ho
    refine ⟨fun ha => ?_, hx, hindex, fun hc => ?_, fun b hb => ?_, fun hst => ?_⟩
    · obtain ⟨a, rfl | rfl | rfl | rfl⟩ := (a_eq_or_writer ho).resolve_left ha
      · exact ⟨a, .inl hi⟩
      · exact ⟨a, .inr (.inl hi)⟩
      · exact ⟨a, .inr (.inr (.inl hi))⟩
      · exact ⟨a, .inr (.inr (.inr hi))⟩
    · obtain ⟨a, rfl⟩ := (cmp_eq_or_writer ho).resolve_left hc
      exact ⟨a, hi⟩
    · obtain ⟨rfl, hread⟩ := (read_eq_or_writer hm ho b).resolve_left hb
      exact ⟨hi, hread⟩
    · rcases (status_eq_or_writer ho).resolve_left hst with rfl | hfailed
      · exact .inl hi
      · exact .inr hfailed
  · exact ⟨fun h => absurd rfl h, rfl, rfl, fun h => absurd rfl h, fun _ h => absurd rfl h,
      fun _ => .inr rfl⟩

end Sys2Proof.Machine
end

section
/-! The memory as the host sees it (20_memory.md R51, R55, R56): the cells after reset, and what the
memory port answers. -/

namespace Sys2Proof.Machine

@[simp] theorem perform_read (a : Int) (s : State) :
    perform (.read a) s = returned s (hostRead a s) := rfl
@[simp] theorem perform_write (a v : Int) (s : State) :
    perform (.write a v) s = committed s (hostWrite a v s) := rfl

theorem hostRead_valid (s : State) {a : Int} (h : valid a = true) :
    hostRead a s = .ok (memRead s a) :=
  if_pos h

theorem hostRead_invalid (s : State) {a : Int} (h : valid a = false) :
    hostRead a s = .error .outOfRange := by
  simp [hostRead, h]

theorem hostWrite_valid (s : State) (v : Int) {a : Int} (h : valid a = true) :
    hostWrite a v s = .ok (memWrite a v s) :=
  if_pos h

theorem hostWrite_invalid (s : State) (v : Int) {a : Int} (h : valid a = false) :
    hostWrite a v s = .error .outOfRange := by
  simp [hostWrite, h]

theorem memRead_reset (a : Int) : memRead State.reset a = 0 :=
  read_nil a.toNat

theorem memRead_memWrite_same {s : State} (hm : Memory.wf s.mem = true) (a v : Int) :
    memRead (memWrite a v s) a = v := by
  rw [memRead_eq, memWrite_mem, read_write hm, if_pos rfl]

/-- Distinct valid addresses name distinct cells. -/
theorem memRead_memWrite_of_ne {s : State} (hm : Memory.wf s.mem = true) {a b : Int} (v : Int)
    (ha : valid a = true) (hb : valid b = true) (hne : b ≠ a) :
    memRead (memWrite a v s) b = memRead s b := by
  rw [valid_iff] at ha hb
  have hcell : b.toNat ≠ a.toNat := by omega
  rw [memRead_eq, memWrite_mem, read_write hm, if_neg hcell, memRead_eq]

/-- Settles O1: the memory after reset lists no cell. -/
theorem resetClearsEveryMemoryCell : Obligations.ResetClearsEveryMemoryCell := by
  intro a _
  exact memRead_reset a

/-- Settles O47: the port's equations at a valid and at an invalid address, and what a read gives after
a write. -/
theorem memoryPortReadsBackWhatItWrote : Obligations.MemoryPortReadsBackWhatItWrote := by
  intro s a v hm _
  refine ⟨fun ha => ⟨?_, memWrite a v s, ?_, rfl, ?_, fun b hb hne => ?_⟩, fun ha => ⟨?_, ?_, ?_⟩⟩
  · rw [perform_read, hostRead_valid s ha, returned_ok]
  · rw [perform_write, hostWrite_valid s v ha, committed_ok]
  · rw [perform_read, hostRead_valid _ ha, memRead_memWrite_same hm, returned_ok]
  · rw [perform_read, hostRead_valid _ hb, memRead_memWrite_of_ne hm v ha hb hne, returned_ok]
  · rw [perform_read, hostRead_invalid s ha, returned_error]
  · rw [perform_write, hostWrite_invalid s v ha, committed_error]
  · rw [perform_setProgramCounter, setProgramCounter_invalid s ha, committed_error]

end Sys2Proof.Machine
end

section
/-! What the decoder answers to a given list of words (30_encoding.md R73, R74): the converses of the
laws that read its answers back, one for each answer other than that to the empty list. -/

namespace Sys2Proof

/-- The decoder reads back what the encoder wrote and leaves the words after it. -/
@[simp] theorem decode_encode_append (i : Instr) (rest : List Int) :
    decode (encode i ++ rest) = .instr i rest := by
  cases i <;> rfl

/-- An opcode word outside the map is `Unknown`, whether or not a word follows it. -/
theorem decode_of_not_opcode {v : Int} (hv : ¬(0 ≤ v ∧ v ≤ 9)) (rest : List Int) :
    decode (v :: rest) = .unknownOpcode v := by
  simp only [decode, opcodeOf_eq_none.mpr hv]

/-- Every opcode but HALT's has format F1 and needs a second word. -/
theorem decode_singleton {v : Int} (h1 : 1 ≤ v) (h9 : v ≤ 9) : decode [v] = .noOperandWord := by
  cases ho : opcodeOf v with
  | none => exact absurd ⟨by omega, h9⟩ (opcodeOf_eq_none.mp ho)
  | some o =>
    obtain rfl := eq_word_of_opcodeOf ho
    cases o with
    | halt => exact absurd h1 (by decide)
    | _ => rfl

/-- Settles O4: six encodings with the words after them, two words outside the map, and an opcode word
of format F1 alone. -/
theorem writtenOutWordsDecode : Obligations.WrittenOutWordsDecode :=
  ⟨decode_encode_append .halt [7], decode_encode_append (.loadA 10) [],
    decode_encode_append (.storeA 12) [], decode_encode_append (.div (-3)) [],
    decode_encode_append (.jumpNeg 4000) [], decode_encode_append (.compare 11) [0],
    decode_of_not_opcode (by decide) [1], decode_of_not_opcode (by decide) [],
    decode_singleton (by decide) (by decide)⟩

/-- Settles O5: each opcode word of the map, with its operand word, is the encoding of its instruction;
every other word is outside the map. -/
theorem decoderIsTotalOnOpcodeWords : Obligations.DecoderIsTotalOnOpcodeWords := by
  intro v a rest
  refine ⟨?halt, ?loadA, ?storeA, ?add, ?sub, ?div, ?jump, ?jumpZero, ?jumpNeg, ?compare, ?unknown⟩
  case unknown => exact fun hv => decode_of_not_opcode hv rest
  all_goals rintro rfl
  case halt => exact decode_encode_append .halt rest
  case loadA => exact decode_encode_append (.loadA a) rest
  case storeA => exact decode_encode_append (.storeA a) rest
  case add => exact decode_encode_append (.add a) rest
  case sub => exact decode_encode_append (.sub a) rest
  case div => exact decode_encode_append (.div a) rest
  case jump => exact decode_encode_append (.jump a) rest
  case jumpZero => exact decode_encode_append (.jumpZero a) rest
  case jumpNeg => exact decode_encode_append (.jumpNeg a) rest
  case compare => exact decode_encode_append (.compare a) rest

end Sys2Proof
end

section
/-! The step from the words at PC (45_execution_loop.md R150, R151): the words of an instruction there
are fetched and decoded back to it, so that a step of a RUNNING core runs it; an opcode word outside the
map fails. -/

namespace Sys2Proof.Machine

variable {i : Instr} {s : State}

/-- The first word of the instruction at PC is the word that PC addresses. -/
theorem opcodeWord_of_instrAtPc {v : Int} {ws : List Int} (h : InstrAtPc i s)
    (he : encode i = v :: ws) : valid s.pc = true ∧ memRead s s.pc = v := by
  simpa [he] using h 0 (by simp [he])

/-- The second word of the instruction at PC is the word after the one that PC addresses. -/
theorem operandWord_of_instrAtPc {v a : Int} {ws : List Int} (h : InstrAtPc i s)
    (he : encode i = v :: a :: ws) : valid (s.pc + 1) = true ∧ memRead s (s.pc + 1) = a := by
  simpa [he] using h 1 (by simp [he])

theorem instrAtPc_halt_iff : InstrAtPc .halt s ↔ valid s.pc = true ∧ memRead s s.pc = 0 := by
  refine ⟨fun h => opcodeWord_of_instrAtPc h rfl, fun h k hk => ?_⟩
  obtain rfl : k = 0 := Nat.lt_one_iff.mp hk
  simpa [encode] using h

theorem fetchWords_of_valid (h : valid s.pc = true) :
    ∃ rest, fetchWords s = memRead s s.pc :: rest :=
  ⟨_, if_pos h⟩

/-- The converse of `instrAtPc_of_decode`: an instruction that stands at PC is fetched and decoded. -/
theorem decode_of_instrAtPc (h : InstrAtPc i s) :
    ∃ rest, decode (fetchWords s) = .instr i rest := by
  by_cases hi : i = .halt
  · subst hi
    obtain ⟨hpc, hop⟩ := instrAtPc_halt_iff.mp h
    obtain ⟨rest, hfetch⟩ := fetchWords_of_valid hpc
    exact ⟨rest, by rw [hfetch, hop]; exact decode_encode_append .halt rest⟩
  · obtain ⟨v, a, he⟩ := List.length_eq_two.mp (encode_length_of_ne_halt hi)
    obtain ⟨hpc, hop⟩ := opcodeWord_of_instrAtPc h he
    obtain ⟨hpc1, harg⟩ := operandWord_of_instrAtPc h he
    have hfetch : fetchWords s = encode i ++ [] := by
      rw [fetchWords, if_pos hpc, if_pos hpc1, hop, harg, he]
      rfl
    exact ⟨[], by rw [hfetch, decode_encode_append]⟩

theorem step_of_decode {rest : List Int} (hr : s.status.run = .running)
    (hd : decode (fetchWords s) = .instr i rest) : step s = exec i s := by
  simp only [step, sequencerStep, hr, hd]

theorem step_of_instrAtPc (hr : s.status.run = .running) (h : InstrAtPc i s) :
    step s = exec i s := by
  obtain ⟨rest, hd⟩ := decode_of_instrAtPc h
  exact step_of_decode hr hd

theorem step_of_not_opcode (hr : s.status.run = .running) (hpc : valid s.pc = true)
    (hop : ¬(0 ≤ memRead s s.pc ∧ memRead s s.pc ≤ 9)) :
    step s = .next (s.failedWith .unknownOpcode (memRead s s.pc)) := by
  obtain ⟨rest, hfetch⟩ := fetchWords_of_valid hpc
  have hd := decode_of_not_opcode hop rest
  rw [← hfetch] at hd
  simp only [step, sequencerStep, hr, hd]
  rfl

end Sys2Proof.Machine
end

section
/-! LOAD-A and STORE-A (40_load_store.md): what each answers at a valid and at an invalid address, and
what the cells read after a store. -/

namespace Sys2Proof.Machine

theorem withDataAddress_valid {s : State} {a : Int} (k : Result) (h : valid a = true) :
    withDataAddress a s k = k :=
  if_pos h

theorem withDataAddress_invalid {s : State} {a : Int} (k : Result) (h : valid a = false) :
    withDataAddress a s k = .next (s.failedWith .outOfRange a) :=
  if_neg (ne_true_of_eq_false h)

theorem exec_loadA_valid (s : State) {a : Int} (h : valid a = true) :
    exec (.loadA a) s = .next { s with a := memRead s a, pc := s.pc + 2 } :=
  withDataAddress_valid _ h

theorem exec_loadA_invalid (s : State) {a : Int} (h : valid a = false) :
    exec (.loadA a) s = .next (s.failedWith .outOfRange a) :=
  withDataAddress_invalid _ h

theorem exec_storeA_valid (s : State) {a : Int} (h : valid a = true) :
    exec (.storeA a) s = .next (advance 2 (memWrite a s.a s)) :=
  withDataAddress_valid _ h

theorem exec_storeA_invalid (s : State) {a : Int} (h : valid a = false) :
    exec (.storeA a) s = .next (s.failedWith .outOfRange a) :=
  withDataAddress_invalid _ h

/-- The frame of a write to memory, over every cell rather than every valid address. -/
theorem read_memWrite_of_ne {s : State} (hm : Memory.wf s.mem = true) {a : Int} (w : Int)
    (ha : valid a = true) {b : Nat} (hb : (b : Int) ≠ a) :
    Memory.read (memWrite a w s).mem b = Memory.read s.mem b := by
  rw [valid_iff] at ha
  have hcell : b ≠ a.toNat := by omega
  rw [memWrite_mem, read_write hm, if_neg hcell]

/-- Settles O22: the two answers, and for an instruction that loads one of its own words, what that
word is. -/
theorem loadALoadsTheAccumulator : Obligations.LoadALoadsTheAccumulator := by
  intro a s
  refine ⟨rfl, decode_encode_append (.loadA a) [], exec_loadA_valid s, exec_loadA_invalid s,
    fun hi ha => ?_, fun hi ha => ?_⟩
  · obtain ⟨hpc, hop⟩ := opcodeWord_of_instrAtPc hi rfl
    rw [← ha] at hpc hop
    rw [exec_loadA_valid s hpc, hop]
  · obtain ⟨hpc1, harg⟩ := operandWord_of_instrAtPc hi rfl
    rw [← ha] at hpc1 harg
    rw [exec_loadA_valid s hpc1, harg]

/-- Settles O23: the two answers, and what the cells read after the write. -/
theorem storeAStoresTheAccumulator : Obligations.StoreAStoresTheAccumulator := by
  intro a s hm
  refine ⟨rfl, decode_encode_append (.storeA a) [], fun ha => ?_, exec_storeA_invalid s⟩
  exact ⟨_, exec_storeA_valid s ha, rfl, memRead_memWrite_same hm a s.a,
    fun b hb => read_memWrite_of_ne hm s.a ha hb⟩

/-- Settles O41: the step is STORE-A's own meaning, whatever it overwrites; where the cell stored to is
the next opcode word, the step after it reads A there. -/
theorem storedWordIsSeenByTheNextFetch : Obligations.StoredWordIsSeenByTheNextFetch := by
  intro s a hm hr hi ha
  obtain ⟨_, _, hstore, _⟩ := storeAStoresTheAccumulator a s hm
  obtain ⟨t, ht, hframe, hcell, hothers⟩ := hstore ha
  have htpc : t.pc = s.pc + 2 := congrArg State.pc hframe
  have htrun : t.status.run = .running := (congrArg (·.status.run) hframe).trans hr
  have hnext (hnxt : a = s.pc + 2) : valid t.pc = true ∧ memRead t t.pc = s.a := by
    obtain rfl : a = (t.pc : Int) := by rw [htpc, hnxt]; rfl
    exact ⟨ha, hcell⟩
  refine ⟨t, (step_of_instrAtPc hr hi).trans ht, htpc, hcell, hothers, fun hnxt hop => ?_,
    fun hnxt hzero => ?_⟩
  · obtain ⟨hpc, hword⟩ := hnext hnxt
    rw [← hword] at hop ⊢
    exact step_of_not_opcode htrun hpc hop
  · obtain ⟨hpc, hword⟩ := hnext hnxt
    exact step_of_instrAtPc htrun (instrAtPc_halt_iff.mpr ⟨hpc, hword.trans hzero⟩)

end Sys2Proof.Machine
end


section
/-! The ALU instructions (41_arithmetic.md R115, R116): what ADD, SUB, DIV and COMPARE write under every
policy, and what `trunc_div` leaves as its remainder. -/

namespace Sys2Proof.Machine

section AluFrame

variable {v : Variant} {i : Instr} {a : Int} {s t : State}

theorem execOutcome_of_execUnder (h : execUnder v i s = .next t) : ExecOutcome v i s t := by
  obtain ⟨u, hu, ho⟩ := execUnder_outcome v i s
  obtain rfl : u = t := by simpa [hu] using h
  exact ho

/-- R115 for ADD, SUB and DIV: every outcome but these is that of another instruction. -/
theorem arithmetic_writes_a_or_fails (hi : i = .add a ∨ i = .sub a ∨ i = .div a)
    (h : ExecOutcome v i s t) :
    (∃ w, t = { s with a := w, pc := s.pc + 2 }) ∨ ∃ kind info, t = s.failedWith kind info := by
  cases h with
  | computed => exact .inl ⟨_, rfl⟩
  | outOfRange | dividedByZero | overflowed => exact .inr ⟨_, _, rfl⟩
  | _ => rcases hi with rfl | rfl | rfl <;> simp_all

/-- R115 for COMPARE. -/
theorem compare_writes_cmp_or_fails (h : ExecOutcome v (.compare a) s t) :
    (∃ w, t = { s with cmp := w, pc := s.pc + 2 }) ∨ ∃ kind info, t = s.failedWith kind info := by
  cases h with
  | compared => exact .inl ⟨_, rfl⟩
  | outOfRange | dividedByZero | overflowed => exact .inr ⟨_, _, rfl⟩
  | _ => simp_all

end AluFrame

/-- Settles O35: the completed state and the error entry each show what they leave unchanged. -/
theorem aluInstructionsWriteOnlyTheirRegister : Obligations.AluInstructionsWriteOnlyTheirRegister := by
  intro v a s t
  refine ⟨fun i hi ht => ?arithmetic, fun ht => ?compare⟩
  case arithmetic =>
    obtain ⟨w, rfl⟩ | ⟨kind, info, rfl⟩ :=
      arithmetic_writes_a_or_fails hi (execOutcome_of_execUnder ht)
    · exact ⟨.inl rfl, rfl, rfl, rfl, fun _ => rfl⟩
    · exact ⟨.inr rfl, rfl, rfl, rfl, fun _ => rfl⟩
  case compare =>
    obtain ⟨w, rfl⟩ | ⟨kind, info, rfl⟩ :=
      compare_writes_cmp_or_fails (execOutcome_of_execUnder ht)
    · exact ⟨.inl rfl, rfl, rfl, rfl, fun _ => rfl⟩
    · exact ⟨.inr rfl, rfl, rfl, rfl, fun _ => rfl⟩

/-- Settles O36: the remainder is the library's `tmod`, whose magnitude is the remainder of the
magnitudes. -/
theorem truncDivRoundsTowardZero : Obligations.TruncDivRoundsTowardZero := by
  intro n d hd
  rw [truncDiv_eq_tdiv]
  refine ⟨Int.natAbs_tdiv n d, n.tmod d, (Int.tdiv_mul_add_tmod n d).symm, ?smaller,
    Int.tmod_nonneg d, fun hn => ?nonpos⟩
  case smaller =>
    rw [Int.natAbs_tmod]
    exact Nat.mod_lt _ (Int.natAbs_pos.mpr hd)
  case nonpos =>
    have hneg : 0 ≤ (-n).tmod d := Int.tmod_nonneg d (by omega)
    rw [Int.neg_tmod] at hneg
    omega

end Sys2Proof.Machine
end


section
/-! HALT and the jumps (42_control.md): the jumps by one rule for the target's check and one for each
answer of a condition, under either reading of the condition register. -/

namespace Sys2Proof.Machine

/-- HALTED and FAILED are terminal (45_execution_loop.md R154). -/
theorem step_of_not_running {s : State} (h : s.status.run ≠ .running) : step s = .next s := by
  rcases sequencerStep_cases (rfl : step s = _) with ⟨_, hstay⟩ | ⟨hr, _⟩
  · exact hstay
  · exact absurd hr h

theorem jumpTo_valid (s : State) {a : Int} (h : valid a = true) :
    jumpTo a s = .next { s with pc := a.toNat } :=
  if_pos h

theorem jumpTo_invalid (s : State) {a : Int} (h : valid a = false) :
    jumpTo a s = .next (s.failedWith .outOfRange a) :=
  if_neg (ne_true_of_eq_false h)

/-- A valid address is unchanged on its way through PC. -/
theorem toNat_of_valid {a : Int} (h : valid a = true) : (a.toNat : Int) = a :=
  Int.toNat_of_nonneg (valid_iff.mp h).1

theorem exec_jump_valid (s : State) {a : Int} (h : valid a = true) :
    exec (.jump a) s = .next { s with pc := a.toNat } :=
  jumpTo_valid s h

theorem exec_jump_invalid (s : State) {a : Int} (h : valid a = false) :
    exec (.jump a) s = .next (s.failedWith .outOfRange a) :=
  jumpTo_invalid s h

theorem condReg_eq_ite (c : CondSrc) (s : State) :
    condReg c s = if c = .a then s.a else s.cmp := by
  cases c <;> rfl

section ConditionalJumps

variable (v : Variant) {s : State} (a : Int)

theorem execUnder_jumpZero_taken (h : condReg v.cond s = 0) :
    execUnder v (.jumpZero a) s = jumpTo a s :=
  if_pos (decide_eq_true h)

theorem execUnder_jumpZero_untaken (h : condReg v.cond s ≠ 0) :
    execUnder v (.jumpZero a) s = .next { s with pc := s.pc + 2 } :=
  if_neg (mt of_decide_eq_true h)

theorem execUnder_jumpNeg_taken (h : condReg v.cond s < 0) :
    execUnder v (.jumpNeg a) s = jumpTo a s :=
  if_pos (decide_eq_true h)

theorem execUnder_jumpNeg_untaken (h : 0 ≤ condReg v.cond s) :
    execUnder v (.jumpNeg a) s = .next { s with pc := s.pc + 2 } :=
  if_neg (mt of_decide_eq_true (not_lt.mpr h))

end ConditionalJumps

/-- Settles O32: each jump is untaken, or `jumpTo` its target, whatever register the condition is on. -/
theorem conditionalJumpsTestTheConditionRegister :
    Obligations.ConditionalJumpsTestTheConditionRegister := by
  intro p c a s v tested
  have htested : tested = condReg c s := (condReg_eq_ite c s).symm
  rw [htested]
  refine ⟨rfl, rfl, execUnder_jumpZero_untaken v a, fun hc ha => ?_, fun hc ha => ?_,
    execUnder_jumpNeg_untaken v a, fun hc ha => ?_, fun hc ha => ?_⟩
  · exact (execUnder_jumpZero_taken v a hc).trans (jumpTo_valid s ha)
  · exact (execUnder_jumpZero_taken v a hc).trans (jumpTo_invalid s ha)
  · exact (execUnder_jumpNeg_taken v a hc).trans (jumpTo_valid s ha)
  · exact (execUnder_jumpNeg_taken v a hc).trans (jumpTo_invalid s ha)

/-- Settles O30: the normative instance of O32, which tests A. -/
theorem jumpZeroTestsTheAccumulator : Obligations.JumpZeroTestsTheAccumulator := by
  intro a s
  obtain ⟨henc, _, huntaken, hvalid, hinvalid, _⟩ :=
    conditionalJumpsTestTheConditionRegister .wrap .a a s
  exact ⟨henc, decode_encode_append (.jumpZero a) [], huntaken, hvalid, hinvalid⟩

/-- Settles O31: the normative instance of O32, which tests A. -/
theorem jumpNegTestsTheAccumulator : Obligations.JumpNegTestsTheAccumulator := by
  intro a s
  obtain ⟨_, henc, _, _, _, huntaken, hvalid, hinvalid⟩ :=
    conditionalJumpsTestTheConditionRegister .wrap .a a s
  exact ⟨henc, decode_encode_append (.jumpNeg a) [], huntaken, hvalid, hinvalid⟩

/-- Settles O28: the word 0 at PC is a HALT there, and the state it leaves is terminal. -/
theorem haltStopsTheCore : Obligations.HaltStopsTheCore := by
  refine ⟨rfl, fun s => ?_⟩
  intro t
  have hexec : exec .halt s = .next t := rfl
  have hstopped : t.status.run ≠ .running := nofun
  refine ⟨hexec, fun hr hpc hop => ⟨?_, step_of_not_running hstopped⟩⟩
  have hstep : step s = .next t :=
    (step_of_instrAtPc hr (instrAtPc_halt_iff.mpr ⟨hpc, hop⟩)).trans hexec
  exact congrArg responded hstep

/-- Settles O29: the two answers; a JUMP to one of its own words has a valid target, since both words
stand in cells that exist. -/
theorem jumpAssignsThePc : Obligations.JumpAssignsThePc := by
  intro a s
  refine ⟨rfl, decode_encode_append (.jump a) [],
    fun ha => ⟨exec_jump_valid s ha, toNat_of_valid ha⟩, exec_jump_invalid s,
    fun hr hi ha => ?itself, fun hr hi ha => ?operandWord⟩
  case itself =>
    obtain ⟨hpc, _⟩ := opcodeWord_of_instrAtPc hi rfl
    subst ha
    rw [step_of_instrAtPc hr hi, exec_jump_valid s hpc, Int.toNat_natCast]
  case operandWord =>
    obtain ⟨hpc1, hword⟩ := operandWord_of_instrAtPc hi rfl
    rw [← ha] at hpc1 hword
    have htarget := toNat_of_valid hpc1
    refine ⟨{ s with pc := a.toNat }, (step_of_instrAtPc hr hi).trans (exec_jump_valid s hpc1),
      htarget.trans ha, ?_⟩
    have hvalid : valid (a.toNat : Int) = true := by rwa [htarget]
    obtain ⟨rest, hfetch⟩ := fetchWords_of_valid (s := { s with pc := a.toNat }) hvalid
    rw [hfetch, List.head?_cons, ← ha]
    exact congrArg some hword

end Sys2Proof.Machine
end

section
/-! The step's own checks and its responses (45_execution_loop.md R151, R154, R155): what a step of a
RUNNING core answers where its fetch fails, and the three ways it can end, told apart by the response. -/

namespace Sys2Proof.Machine

variable {v : Variant} {i : Instr} {s t : State}

/-- Check (1) of R151: there is no opcode word to fetch. -/
theorem step_of_memSize_le_pc (hr : s.status.run = .running) (hpc : Config.memSize ≤ s.pc) :
    step s = .next (s.failedWith .outOfRange s.pc) := by
  have hge : 4000 ≤ s.pc := hpc
  have hfetch : fetchWords s = [] := by
    rw [fetchWords_eq, if_neg (by omega), if_neg (by omega)]
  have hd : decode (fetchWords s) = .noOpcodeWord := by rw [hfetch]; rfl
  simp only [step, sequencerStep, hr, hd]
  rfl

/-- Check (3) of R151: the opcode word is the last word of memory and its instruction needs an operand
word. -/
theorem step_of_no_operandWord (hr : s.status.run = .running) (hpc : s.pc + 1 = Config.memSize)
    (h1 : 1 ≤ memRead s s.pc) (h9 : memRead s s.pc ≤ 9) :
    step s = .next (s.failedWith .outOfRange (s.pc + 1)) := by
  have hlast : s.pc = 3999 := Nat.succ.inj hpc
  have hfetch : fetchWords s = [memRead s s.pc] := by
    rw [fetchWords_eq, if_neg (by omega), if_pos hlast]
  have hd : decode (fetchWords s) = .noOperandWord := by rw [hfetch, decode_singleton h1 h9]
  simp only [step, sequencerStep, hr, hd]
  rfl

@[simp] theorem response_failedWith (s : State) (kind : ErrorKind) (info : Int) :
    response (s.failedWith kind info) = .error kind info := rfl

theorem response_of_running (h : t.status.run = .running) : response t = .cont := by
  simp only [response, h]

theorem response_of_halted (h : t.status.run = .halted) : response t = .halted := by
  simp only [response, h]

theorem response_of_failed (h : t.status.run = .failed) :
    response t = .error t.status.err t.status.info := by
  simp only [response, h]

theorem running_of_response_cont (h : response t = .cont) : t.status.run = .running := by
  cases hrun : t.status.run with
  | running => rfl
  | halted => cases (response_of_halted hrun).symm.trans h
  | failed => cases (response_of_failed hrun).symm.trans h

theorem halted_of_response_halted (h : response t = .halted) : t.status.run = .halted := by
  cases hrun : t.status.run with
  | running => cases (response_of_running hrun).symm.trans h
  | halted => rfl
  | failed => cases (response_of_failed hrun).symm.trans h

/-- The three ways in which a step of a RUNNING core ends: HALT completes, another instruction completes
and keeps STATUS, or the step raises. -/
theorem running_step_cases (hr : s.status.run = .running) (h : StepOutcome v s t) :
    (InstrAtPc .halt s ∧ t = { s with pc := s.pc + 1, status := { s.status with run := .halted } }) ∨
      (t.status = s.status ∧ ∃ i, i ≠ .halt ∧ InstrAtPc i s) ∨
      ∃ kind info, t = s.failedWith kind info := by
  rcases executed_or_failed_of_running hr h with ⟨i, hi, ho⟩ | hfailed
  · cases ho with
    | halted hhalt => exact .inl ⟨hhalt ▸ hi, rfl⟩
    | outOfRange | dividedByZero | overflowed => exact .inr (.inr ⟨_, _, rfl⟩)
    | _ => exact .inr (.inl ⟨rfl, i, by rintro rfl; simp_all, hi⟩)
  · exact .inr (.inr hfailed)

section Responses

variable (hr : s.status.run = .running) (hstep : step s = .next t)
include hr hstep

/-- A step of a RUNNING core that answers Halted ran a HALT. -/
theorem halt_of_response_halted (h : response t = .halted) :
    InstrAtPc .halt s ∧ t = { s with pc := s.pc + 1, status := { s.status with run := .halted } } := by
  rcases running_step_cases hr (outcome_of_step hstep) with hhalt | ⟨hst, _⟩ | ⟨kind, info, rfl⟩
  · exact hhalt
  · cases (response_of_running (by rw [hst, hr])).symm.trans h
  · cases h

/-- A step of a RUNNING core that answers Continue completed another instruction. -/
theorem completed_of_response_cont (h : response t = .cont) :
    t.status = s.status ∧ ∃ i, i ≠ .halt ∧ InstrAtPc i s := by
  rcases running_step_cases hr (outcome_of_step hstep) with ⟨_, rfl⟩ | hkept | ⟨kind, info, rfl⟩
  · cases h
  · exact hkept
  · cases h

/-- A step of a RUNNING core that answers an Error wrote only STATUS (R155). -/
theorem failedWith_of_response_error {kind : ErrorKind} {info : Int}
    (h : response t = .error kind info) : t = s.failedWith kind info := by
  rcases running_step_cases hr (outcome_of_step hstep) with ⟨_, rfl⟩ | ⟨hst, _⟩ | ⟨kind', info', rfl⟩
  · cases h
  · cases (response_of_running (by rw [hst, hr])).symm.trans h
  · cases h
    rfl

end Responses

/-- Settles O10: one rule for each of the three checks. -/
theorem stepChecksInTheOrderOfTheSpec : Obligations.StepChecksInTheOrderOfTheSpec :=
  fun _ hr => ⟨step_of_memSize_le_pc hr, step_of_not_opcode hr, step_of_no_operandWord hr⟩

/-- Settles O12: each response names the way the step ended, and a fetched HALT is the one that ran. -/
theorem responseTellsHowTheStepEnded : Obligations.ResponseTellsHowTheStepEnded := by
  intro s t hr hstep
  refine ⟨⟨fun h => ?ranHalt, fun ⟨rest, hd⟩ => ?halted⟩, fun h => ?completed,
    fun kind info => failedWith_of_response_error hr hstep⟩
  case ranHalt =>
    obtain ⟨hi, _⟩ := halt_of_response_halted hr hstep h
    exact decode_of_instrAtPc hi
  case halted =>
    rw [step_of_decode hr hd] at hstep
    cases hstep
    rfl
  case completed =>
    obtain ⟨hst, i, hne, hi⟩ := completed_of_response_cont hr hstep h
    obtain ⟨rest, hd⟩ := decode_of_instrAtPc hi
    exact ⟨hst, i, rest, hne, hd⟩

/-- Settles O14: a FAILED state answers an Error, so the step was an error entry. -/
theorem failingStepWritesOnlyStatus : Obligations.FailingStepWritesOnlyStatus := by
  intro s t hr hstep hfailed
  have ht := failedWith_of_response_error hr hstep (response_of_failed hfailed)
  rw [ht]
  exact ⟨rfl, rfl, rfl, rfl, rfl, fun _ => rfl, rfl⟩

/-- Settles O9: the words at PC are what the fetched words decode to. -/
theorem stepRunsTheDecodedInstruction : Obligations.StepRunsTheDecodedInstruction :=
  fun _ _ hr => ⟨step_of_instrAtPc hr, fun _ => step_of_decode hr⟩

/-- The host's step on a stopped core: the latched response (R154). -/
theorem perform_step_of_not_running (h : s.status.run ≠ .running) :
    perform .step s = .next (.response (response s), s) :=
  congrArg responded (step_of_not_running h)

/-- Settles O11: both stopped states are terminal and their response is read from STATUS. -/
theorem stoppedCoreRepeatsItsResponse : Obligations.StoppedCoreRepeatsItsResponse := by
  intro s
  refine ⟨fun h => ?halted, fun h => ?failed⟩
  case halted =>
    have hstopped : s.status.run ≠ .running := by simp [h]
    exact ⟨step_of_not_running hstopped,
      by rw [perform_step_of_not_running hstopped, response_of_halted h]⟩
  case failed =>
    have hstopped : s.status.run ≠ .running := by simp [h]
    exact ⟨step_of_not_running hstopped,
      by rw [perform_step_of_not_running hstopped, response_of_failed h]⟩

end Sys2Proof.Machine
end

section
/-! The sequencer's next PC (45_execution_loop.md R152, R153): a step that does not raise assigns a valid
target to PC, or advances PC by the length of the instruction. -/

namespace Sys2Proof.Machine

/-- The instruction `i` is a jump to `a` that is taken at `s`: a JUMP, or a conditional jump whose
condition is true (42_control.md R131, R132, R133). -/
def TakesJump (v : Variant) (i : Instr) (s : State) (a : Int) : Prop :=
  i = .jump a ∨ (i = .jumpZero a ∧ condReg v.cond s = 0) ∨ (i = .jumpNeg a ∧ condReg v.cond s < 0)

variable {v : Variant} {i : Instr} {s t : State}

theorem jumped_or_advanced (h : ExecOutcome v i s t) (hok : t.status.run ≠ .failed) :
    (∃ a, TakesJump v i s a ∧ valid a = true ∧ t.pc = a.toNat) ∨
      ((∀ a, ¬TakesJump v i s a) ∧ t.pc = s.pc + (encode i).length) := by
  cases h with
  | jumped a hi ha => exact .inl ⟨a, hi, ha, rfl⟩
  | outOfRange | dividedByZero | overflowed => exact absurd rfl hok
  | halted hi | loaded _ hi | stored _ hi | compared _ _ hi =>
    subst hi
    exact .inr ⟨fun _ => by simp [TakesJump], rfl⟩
  | computed _ _ hi =>
    rcases hi with rfl | rfl | rfl <;> exact .inr ⟨fun _ => by simp [TakesJump], rfl⟩
  | passed _ hi =>
    rcases hi with ⟨rfl, hc⟩ | ⟨rfl, hc⟩ <;> exact .inr ⟨fun _ => by simp [TakesJump, hc], rfl⟩

/-- The words of the instruction at PC end within the memory. -/
theorem pc_add_length_le_of_instrAtPc (h : InstrAtPc i s) :
    s.pc + (encode i).length ≤ Config.memSize := by
  obtain ⟨hpc, hpc1⟩ := pc_lt_of_instrAtPc h
  by_cases hi : i = .halt
  · subst hi
    exact hpc
  · rw [encode_length_of_ne_halt hi]
    exact Nat.succ_le_succ (hpc1 hi)

theorem stepUnder_of_instrAtPc (hr : s.status.run = .running) (h : InstrAtPc i s) :
    stepUnder v s = execUnder v i s := by
  obtain ⟨rest, hd⟩ := decode_of_instrAtPc h
  simp only [stepUnder, sequencerStep, hr, hd]

theorem execOutcome_of_stepUnder (hr : s.status.run = .running) (hi : InstrAtPc i s)
    (h : stepUnder v s = .next t) : ExecOutcome v i s t :=
  execOutcome_of_execUnder ((stepUnder_of_instrAtPc hr hi).symm.trans h)

/-- Settles O17: a taken jump's row is its target, every other row the advance by the instruction's
length. -/
theorem nextPcIsThatOfTheTable : Obligations.NextPcIsThatOfTheTable := by
  refine ⟨fun v s t i hr hi hstep hok => ?_, step_eq_stepUnder⟩
  rcases jumped_or_advanced (execOutcome_of_stepUnder hr hi hstep) hok with
    ⟨a, htaken, ha, hpc⟩ | ⟨huntaken, hpc⟩
  · rw [hpc, toNat_of_valid ha]
    rcases htaken with rfl | ⟨rfl, hc⟩ | ⟨rfl, hc⟩
    · rfl
    · exact (if_pos hc).symm
    · exact (if_pos hc).symm
  · rw [hpc]
    cases i with
    | jump a => exact absurd (.inl rfl) (huntaken a)
    | jumpZero a => exact (if_neg fun hc => huntaken a (.inr (.inl ⟨rfl, hc⟩))).symm
    | jumpNeg a => exact (if_neg fun hc => huntaken a (.inr (.inr ⟨rfl, hc⟩))).symm
    | _ => rfl

/-- Settles O18: a valid target is less than MEM_SIZE, and the words that the advance passes lie within
the memory. -/
theorem pcReachesMemSizeOnlyByAdvance : Obligations.PcReachesMemSizeOnlyByAdvance := by
  intro s t i rest hr hd hstep hok
  have hi := instrAtPc_of_decode hd
  rw [step_eq_stepUnder] at hstep
  have hfails : t.pc = Config.memSize → t.status.run = .running →
      step t = .next (t.failedWith .outOfRange Config.memSize) := fun hpc hrun => by
    rw [step_of_memSize_le_pc hrun hpc.ge, hpc]
  rcases jumped_or_advanced (execOutcome_of_stepUnder hr hi hstep) hok with
    ⟨a, _, ha, hpc⟩ | ⟨huntaken, hpc⟩
  · have hlt : t.pc < Config.memSize := by
      have hbound : t.pc < 4000 := by rw [valid_iff] at ha; omega
      exact hbound
    exact ⟨hlt.le, fun h => absurd h hlt.ne, hfails⟩
  · refine ⟨hpc.trans_le (pc_add_length_le_of_instrAtPc hi), fun h => ⟨hpc.symm.trans h, fun a => ?_⟩,
      hfails⟩
    exact ⟨fun hj => huntaken a (.inl hj),
      fun hz hc => huntaken a (.inr (.inl ⟨hz, hc⟩)),
      fun hn => not_lt.mp fun hc => huntaken a (.inr (.inr ⟨hn, hc⟩))⟩

end Sys2Proof.Machine
end

section
/-! The run (45_execution_loop.md R156, R157, R158): `runFor` over the steps that answer Continue, and
its end at the first that does not. -/

namespace Sys2Proof.Machine

variable {s t u : State} {k : Nat} {r : Response}

theorem exists_step (s : State) : ∃ t, step s = .next t := by
  obtain ⟨t, ht, _⟩ := stepUnder_outcome Config.variant s
  exact ⟨t, (step_eq_stepUnder s).trans ht⟩

theorem runFor_succ_of_cont (k : Nat) (h : step s = .next t) (hc : response t = .cont) :
    runFor (k + 1) s = runFor k t := by
  simp only [runFor, h, hc]

theorem runFor_succ_of_stop (k : Nat) (h : step s = .next t) (hc : response t ≠ .cont) :
    runFor (k + 1) s = some (response t, t) := by
  cases hresp : response t with
  | cont => exact absurd hresp hc
  | halted => simp only [runFor, h, hresp]
  | error kind info => simp only [runFor, h, hresp]

/-- Steps that all answer Continue use up the budget and nothing else. -/
theorem runFor_add_of_continuesTo {j : Nat} (h : ContinuesTo j s u) (k : Nat) :
    runFor (j + k) s = runFor k u := by
  induction j generalizing s with
  | zero =>
    obtain rfl : s = u := h
    rw [Nat.zero_add]
  | succ j ih =>
    obtain ⟨w, hstep, hc, hrest⟩ := h
    rw [Nat.succ_add, runFor_succ_of_cont _ hstep hc, ih hrest]

/-- A run that has ended within a budget ends alike within every larger one. -/
theorem runFor_add_of_eq_some {p : Response × State} (h : runFor k s = some p) (m : Nat) :
    runFor (k + m) s = some p := by
  induction k generalizing s with
  | zero => cases h
  | succ k ih =>
    obtain ⟨u, hstep⟩ := exists_step s
    rw [Nat.succ_add]
    by_cases hc : response u = .cont
    · rw [runFor_succ_of_cont _ hstep hc] at h ⊢
      exact ih h
    · rw [runFor_succ_of_stop _ hstep hc] at h ⊢
      exact h

/-- What a run that ended within a budget did: steps that answered Continue, and one that did not. -/
theorem stop_of_runFor_eq_some (h : runFor k s = some (r, t)) :
    r ≠ .cont ∧ ∃ j u, ContinuesTo j s u ∧ step u = .next t ∧ response t = r := by
  induction k generalizing s with
  | zero => cases h
  | succ k ih =>
    obtain ⟨w, hstep⟩ := exists_step s
    by_cases hc : response w = .cont
    · rw [runFor_succ_of_cont _ hstep hc] at h
      obtain ⟨hr, j, u, hcont, hstop⟩ := ih h
      exact ⟨hr, j + 1, u, ⟨w, hstep, hc, hcont⟩, hstop⟩
    · rw [runFor_succ_of_stop _ hstep hc] at h
      cases h
      exact ⟨hc, 0, s, rfl, hstep, rfl⟩

theorem runEnds_iff : RunEnds s r t ↔
    r ≠ .cont ∧ ∃ k u, ContinuesTo k s u ∧ step u = .next t ∧ response t = r := by
  refine ⟨fun ⟨_, h⟩ => stop_of_runFor_eq_some h, ?_⟩
  rintro ⟨hr, j, u, hcont, hstep, rfl⟩
  exact ⟨j + 1, by rw [runFor_add_of_continuesTo hcont, runFor_succ_of_stop 0 hstep hr]⟩

/-- A RUNNING core that has continued is RUNNING. -/
theorem running_of_continuesTo (hr : s.status.run = .running) (h : ContinuesTo k s u) :
    u.status.run = .running := by
  induction k generalizing s with
  | zero =>
    obtain rfl : s = u := h
    exact hr
  | succ k ih =>
    obtain ⟨w, _, hc, hrest⟩ := h
    exact ih (running_of_response_cont hc) hrest

/-- A step that answers Continue and changes nothing can be repeated for ever. -/
theorem continuesTo_self (h : step s = .next s) (hc : response s = .cont) (k : Nat) :
    ContinuesTo k s s := by
  induction k with
  | zero => rfl
  | succ k ih => exact ⟨s, h, hc, ih⟩

/-- Settles O42: the end of a run is the last step of `runEnds_iff`, whose response tells what it did. -/
theorem runEndsAtTheFirstStop : Obligations.RunEndsAtTheFirstStop := by
  intro s t r
  refine ⟨runEnds_iff, fun hend => ?status, fun hr hend => ?halt, fun kind info hr hend => ?error⟩
  all_goals obtain ⟨_, k, u, hcont, hstep, hresp⟩ := runEnds_iff.mp hend
  case status => exact halted_of_response_halted hresp
  case halt =>
    obtain ⟨hi, ht⟩ := halt_of_response_halted (running_of_continuesTo hr hcont) hstep hresp
    exact ⟨k, u, hcont, hi, congrArg State.pc ht⟩
  case error =>
    exact ⟨k, u, hcont,
      failedWith_of_response_error (running_of_continuesTo hr hcont) hstep hresp⟩

/-- Settles O43: both ends are found within the sum of their budgets. -/
theorem runHasAtMostOneEnd : Obligations.RunHasAtMostOneEnd := by
  rintro s t t' r r' ⟨k, h⟩ ⟨k', h'⟩
  have hsum := runFor_add_of_eq_some h k'
  rw [Nat.add_comm, runFor_add_of_eq_some h' k] at hsum
  cases hsum
  exact ⟨rfl, rfl⟩

/-- Settles O44: the JUMP's step is the identity and answers Continue. -/
theorem jumpToItselfNeverEnds : Obligations.JumpToItselfNeverEnds := by
  intro s hr hi k
  obtain ⟨hpc, _⟩ := opcodeWord_of_instrAtPc hi rfl
  have hstep : step s = .next s := by
    rw [step_of_instrAtPc hr hi, exec_jump_valid s hpc, Int.toNat_natCast]
  have hcont := continuesTo_self hstep (response_of_running hr) k
  exact ⟨hcont, runFor_add_of_continuesTo hcont 0⟩

end Sys2Proof.Machine
end

section
/-! The ALU instructions by their exact result (41_arithmetic.md R111 to R114, 60_exceptions.md R184):
one rule for the four of them under every overflow policy. -/

namespace Sys2Proof.Machine

/-- `n` is the exact result that the ALU instruction `i` with operand `a` hands to `alu_result`. A DIV has
one only where its divisor is not 0. -/
inductive ExactResult (s : State) (a : Int) : Instr → Int → Prop where
  | add : ExactResult s a (.add a) (s.a + memRead s a)
  | sub : ExactResult s a (.sub a) (s.a - memRead s a)
  | compare : ExactResult s a (.compare a) (s.a - memRead s a)
  | div : memRead s a ≠ 0 → ExactResult s a (.div a) (Int.tdiv s.a (memRead s a))

/-- An ALU result in its register: CMP for a COMPARE, A for the others (41_arithmetic.md R115). -/
def State.putResult (i : Instr) (w : Int) (s : State) : State :=
  match i with
  | .compare _ => s.setCmp w
  | _ => s.setA w

@[simp] theorem putResult_status (i : Instr) (w : Int) (s : State) :
    (s.putResult i w).status = s.status := by
  cases i <;> rfl

theorem withDataWord_valid {s : State} {a : Int} (k : Int → Result) (h : valid a = true) :
    withDataWord a s k = k (memRead s a) :=
  withDataAddress_valid _ h

theorem divUnder_zero (p : OverflowPolicy) {a : Int} {s : State} (h : valid a = true)
    (h0 : memRead s a = 0) : divUnder p a s = .next (s.failedWith .divideByZero a) :=
  (withDataWord_valid _ h).trans (if_pos h0)

theorem divUnder_nonzero (p : OverflowPolicy) {a : Int} {s : State} (h : valid a = true)
    (h0 : memRead s a ≠ 0) :
    divUnder p a s = withAluResult p a (Int.tdiv s.a (memRead s a)) s
      fun w => .next (advance 2 (s.setA w)) := by
  rw [← truncDiv_eq_tdiv]
  exact (withDataWord_valid _ h).trans (if_neg h0)

/-- The policy matters only where there is an exact result for it to be applied to. -/
theorem exactResult_or_policy_irrelevant (v : Variant) (i : Instr) (s : State) {a : Int}
    (ho : i.operand? = some a) (ha : valid a = true) :
    (∃ n, ExactResult s a i n) ∨ execUnder v i s = execUnder { v with overflow := .wrap } i s := by
  cases i with
  | add | sub | compare => cases ho; exact .inl ⟨_, by constructor⟩
  | div =>
    cases ho
    by_cases h0 : memRead s a = 0
    · exact .inr ((divUnder_zero _ ha h0).trans (divUnder_zero _ ha h0).symm)
    · exact .inl ⟨_, .div h0⟩
  | _ => exact .inr rfl

section AluRule

variable {v : Variant} {i : Instr} {s : State} {a n : Int}
variable (h : ExactResult s a i n) (ha : valid a = true)
include h ha

/-- The one rule: an ALU instruction is `alu_result` of its exact result, then its register and PC. -/
theorem execUnder_of_exactResult :
    execUnder v i s = withAluResult v.overflow a n s fun w => .next (advance 2 (s.putResult i w)) := by
  cases h with
  | add | sub | compare =>
    simp only [execUnder, addUnder, subUnder, compareUnder, withDataWord_valid _ ha]
    rfl
  | div h0 => exact divUnder_nonzero v.overflow ha h0

theorem execUnder_of_aluResult_eq_some {w : Int} (hw : aluResult v.overflow n = some w) :
    execUnder v i s = .next (advance 2 (s.putResult i w)) := by
  rw [execUnder_of_exactResult h ha, withAluResult, hw]

theorem execUnder_of_aluResult_eq_none (hw : aluResult v.overflow n = none) :
    execUnder v i s = .next (s.failedWith .overflow a) := by
  rw [execUnder_of_exactResult h ha, withAluResult, hw]
  rfl

end AluRule

/-- Settles O34: the one rule at each of the four instructions. -/
theorem arithmeticUnderEveryPolicy : Obligations.ArithmeticUnderEveryPolicy := by
  intro v a s ha
  refine ⟨?add, ?subCompare, ?div⟩
  case add =>
    rintro _ rfl
    exact ⟨fun _ => execUnder_of_aluResult_eq_some .add ha, execUnder_of_aluResult_eq_none .add ha⟩
  case subCompare =>
    rintro _ rfl
    exact ⟨fun _ hw => ⟨execUnder_of_aluResult_eq_some .sub ha hw,
        execUnder_of_aluResult_eq_some .compare ha hw⟩,
      fun hw => ⟨execUnder_of_aluResult_eq_none .sub ha hw,
        execUnder_of_aluResult_eq_none .compare ha hw⟩⟩
  case div =>
    rintro _ rfl h0
    exact ⟨fun _ => execUnder_of_aluResult_eq_some (.div h0) ha,
      execUnder_of_aluResult_eq_none (.div h0) ha⟩

end Sys2Proof.Machine
end

section
/-! The causes of a latched error (60_exceptions.md R182), under every variant, and that an error is the
only way in which an operation ends early (R181): every operation answers a next state. -/

namespace Sys2Proof.Machine

variable {v : Variant} {i : Instr} {s t : State} {a info : Int} {kind : ErrorKind}

/-- The rows of R182 that an instruction itself raises: why `i` fails with this kind and info. -/
inductive ErrorCause (v : Variant) (s : State) (i : Instr) : ErrorKind → Int → Prop where
  | outOfRange {a : Int} : i.operand? = some a → valid a = false →
      (i = .jumpZero a → condReg v.cond s = 0) → (i = .jumpNeg a → condReg v.cond s < 0) →
      ErrorCause v s i .outOfRange a
  | divideByZero {a : Int} : i = .div a → valid a = true → memRead s a = 0 →
      ErrorCause v s i .divideByZero a
  | overflow {a n : Int} : v.overflow = .fault → valid a = true → ExactResult s a i n →
      isWord n = false → ErrorCause v s i .overflow a

section Causes

variable (hr : s.status.run = .running)
include hr

/-- An instruction does not both complete, leaving STATUS, and take the error entry. -/
theorem status_ne_of_failed {u : State} (hu : execUnder v i s = .next u)
    (h : execUnder v i s = .next (s.failedWith kind info)) : u.status ≠ s.status := fun hstatus => by
  obtain rfl : u = s.failedWith kind info := Host.Outcome.next.inj (hu.symm.trans h)
  cases hr.symm.trans (congrArg Status.run hstatus).symm

/-- An instruction that answers an Overflow does so under the policy Fault. -/
theorem policy_eq_fault_of_overflow (h : execUnder v i s = .next (s.failedWith .overflow a)) :
    v.overflow = .fault := by
  generalize ht : s.failedWith .overflow a = t at h
  have hstatus : { run := .failed, err := .overflow, info := a } = t.status := congrArg State.status ht
  cases execOutcome_of_execUnder h with
  | overflowed _ hf => exact hf
  | halted | outOfRange | dividedByZero => cases hstatus
  | _ => cases (congrArg Status.run hstatus).trans hr

/-- Where an instruction takes the error entry, this is why. -/
theorem errorCause_of_execUnder (h : execUnder v i s = .next t)
    (hfail : t.status = { run := .failed, err := kind, info := info }) :
    ErrorCause v s i kind info := by
  cases execOutcome_of_execUnder h with
  | outOfRange a ho ha =>
    cases hfail
    refine .outOfRange ho ha ?zero ?negative
    case zero =>
      rintro rfl
      by_contra hc
      exact status_ne_of_failed hr (execUnder_jumpZero_untaken v info hc) h rfl
    case negative =>
      rintro rfl
      by_contra hc
      exact status_ne_of_failed hr (execUnder_jumpNeg_untaken v info (not_lt.mp hc)) h rfl
  | dividedByZero a hi ha h0 =>
    cases hfail
    exact .divideByZero hi ha h0
  | overflowed a hf ho ha =>
    cases hfail
    rcases exactResult_or_policy_irrelevant v i s ho ha with ⟨n, hn⟩ | hwrap
    · cases hw : aluResult v.overflow n with
      | none => exact .overflow hf ha hn (aluResult_eq_none.mp hw).2
      | some w =>
        have hdone := execUnder_of_aluResult_eq_some hn ha hw
        exact absurd ((advance_status _ 2).trans (putResult_status i w s)) (status_ne_of_failed hr hdone h)
    · cases policy_eq_fault_of_overflow hr (hwrap.symm.trans h)
  | halted => cases hfail
  | _ => cases hr.symm.trans (congrArg Status.run hfail)

end Causes

theorem stepOutcome_of_stepUnder (h : stepUnder v s = .next t) : StepOutcome v s t := by
  obtain ⟨u, hu, ho⟩ := stepUnder_outcome v s
  obtain rfl : u = t := by simpa [hu] using h
  exact ho

/-- Settles O15: the step's own checks name their cause, and the instruction at PC has an `ErrorCause`. -/
theorem latchedErrorNamesItsCause : Obligations.LatchedErrorNamesItsCause := by
  refine ⟨fun v s t kind info hr hstep hfail => ?_, step_eq_stepUnder, rfl⟩
  cases stepOutcome_of_stepUnder hstep with
  | stopped h => exact absurd hr h
  | executed i _ _ hi =>
    have hexec := (stepUnder_of_instrAtPc hr hi).symm.trans hstep
    cases errorCause_of_execUnder hr hexec hfail with
    | outOfRange ho ha hzero hneg => exact .inl ⟨rfl, ha, .inr (.inr ⟨i, hi, ho, hzero, hneg⟩)⟩
    | divideByZero hdiv ha h0 => exact .inr (.inr (.inl ⟨rfl, hdiv ▸ hi, ha, h0⟩))
    | @overflow _ n hf ha hn hw =>
      refine .inr (.inr (.inr ⟨rfl, hf, ha, n, hw, ?_⟩))
      cases hn with
      | add => exact .inl ⟨hi, rfl⟩
      | sub => exact .inr (.inl ⟨.inl hi, rfl⟩)
      | compare => exact .inr (.inl ⟨.inr hi, rfl⟩)
      | div h0 => exact .inr (.inr ⟨hi, h0, rfl⟩)
  | unknownOpcode _ hpc hop =>
    cases hfail
    exact .inr (.inl ⟨rfl, hpc, rfl, hop⟩)
  | noOpcodeWord _ hpc =>
    cases hfail
    exact .inl ⟨rfl, valid_false_iff.mpr (by omega), .inl ⟨hpc, rfl⟩⟩
  | noOperandWord _ hpc h1 h9 =>
    cases hfail
    exact .inl ⟨rfl, valid_false_iff.mpr (by omega), .inr (.inl ⟨congrArg Nat.succ hpc, h1, h9, rfl⟩)⟩

theorem exists_returned (s : State) (e : Except ErrorKind Int) :
    ∃ r t, returned s e = .next (r, t) := by
  cases e <;> exact ⟨_, _, rfl⟩

theorem exists_committed (s : State) (e : Except ErrorKind State) :
    ∃ r t, committed s e = .next (r, t) := by
  cases e <;> exact ⟨_, _, rfl⟩

/-- Settles O13, operation by operation: a read returns, a write commits and a step responds. -/
theorem everyOperationAnswersANextState : Obligations.EveryOperationAnswersANextState := by
  refine ⟨fun v s => (stepUnder_outcome v s).imp fun _ h => h.1, exists_step, fun op s => ?_⟩
  cases op with
  | reset | inspectCmp | inspectPc | inspectStatus => exact ⟨_, _, rfl⟩
  | read | readRegister => exact exists_returned s _
  | loadProgram | write | writeRegister | setProgramCounter => exact exists_committed s _
  | step =>
    obtain ⟨t, ht⟩ := exists_step s
    exact ⟨_, t, congrArg responded ht⟩

end Sys2Proof.Machine
end

section
/-! Loading a program (70_reset_and_hazards.md R211, R212): what every address reads after a load, by
the recursion of the load over its words. -/

namespace Sys2Proof.Machine

/-- The one spec of a load: its words stand from `i` on, and every other cell reads as before. -/
theorem read_load {m : Memory} {i : Nat} {words : List Int} (hm : Memory.wf m = true)
    (h : i + words.length ≤ Config.memSize) (b : Nat) :
    Memory.read (Memory.load m i words) b =
      if b < i then Memory.read m b else words.getD (b - i) (Memory.read m b) := by
  induction words generalizing m i with
  | nil => exact (ite_self _).symm
  | cons v rest ih =>
    rw [List.length_cons] at h
    have hload := ih (wf_write hm v (by omega : i < Config.memSize)) (by omega : i + 1 + rest.length ≤ _)
    rw [Memory.load, hload, read_write hm]
    rcases Nat.lt_trichotomy b i with hlt | rfl | hgt
    · rw [if_pos (by omega), if_neg (by omega), if_pos hlt]
    · simp
    · obtain ⟨k, rfl⟩ := Nat.exists_eq_add_of_lt hgt
      have hhead : i + k + 1 - (i + 1) = k := by omega
      have htail : i + k + 1 - i = k + 1 := by omega
      rw [if_neg (by omega), if_neg (by omega), if_neg (by omega), hhead, htail, List.getD_cons_succ]

theorem read_load_zero {m : Memory} {words : List Int} (hm : Memory.wf m = true)
    (h : words.length ≤ Config.memSize) (b : Nat) :
    Memory.read (Memory.load m 0 words) b = words.getD b (Memory.read m b) :=
  read_load hm (by omega) b

@[simp] theorem perform_loadProgram (words : List Int) (s : State) :
    perform (.loadProgram words) s = committed s (loadProgram words s) := rfl

theorem loadProgram_of_fits (s : State) {words : List Int} (h : words.length ≤ Config.memSize) :
    loadProgram words s = .ok (s.setMem (Memory.load s.mem 0 words)) :=
  if_pos h

theorem loadProgram_of_too_large (s : State) {words : List Int} (h : Config.memSize < words.length) :
    loadProgram words s = .error .programTooLarge :=
  if_neg (by omega)

/-- Settles O49: the check on the length, and `read_load` inside and past the program. -/
theorem loadedProgramStandsAtItsIndices : Obligations.LoadedProgramStandsAtItsIndices := by
  intro s words hm
  refine ⟨fun hfits => ?fits, fun hlarge => ?tooLarge⟩
  case fits =>
    refine ⟨s.setMem (Memory.load s.mem 0 words), ?_, rfl, fun k hk => ?_, fun k hk => ?_⟩
    · rw [perform_loadProgram, loadProgram_of_fits s hfits, committed_ok]
    · rw [setMem_mem, read_load_zero hm hfits, List.getD_eq_getElem _ _ hk]
    · rw [setMem_mem, read_load_zero hm hfits, List.getD_eq_default _ _ hk]
  case tooLarge =>
    rw [perform_loadProgram, loadProgram_of_too_large s hlarge, committed_error]

end Sys2Proof.Machine
end

section
/-! Reset and STATUS (70_reset_and_hazards.md R210): the state after reset, and that of the host's
operations only reset and a step of a RUNNING core write STATUS. -/

namespace Sys2Proof.Machine

variable {s t : State} {r : HostResult}

/-- Settles O2: each row of the table is a field of `State.reset`. -/
theorem resetLeavesTheStateOfTheResetTable : Obligations.ResetLeavesTheStateOfTheResetTable :=
  ⟨rfl, rfl, fun k => Vector.getElem_replicate k.isLt, rfl, rfl, rfl, fun a _ => memRead_reset a,
    fun _ => rfl⟩

/-- The shape of the checked write accessors: behind the check stands the one state they can answer. -/
theorem eq_of_checked_eq_ok {c : Prop} [Decidable c] {u : State} {kind : ErrorKind}
    (h : (if c then .ok u else .error kind : Except ErrorKind State) = .ok t) : t = u := by
  split at h
  · exact (Except.ok.inj h).symm
  · cases h

theorem status_eq_of_loadProgram {words : List Int} (h : loadProgram words s = .ok t) :
    t.status = s.status := by
  rw [eq_of_checked_eq_ok h, setMem_status]

theorem status_eq_of_hostWrite {a v : Int} (h : hostWrite a v s = .ok t) : t.status = s.status := by
  rw [eq_of_checked_eq_ok h, memWrite_status]

theorem status_eq_of_setProgramCounter {a : Int} (h : setProgramCounter a s = .ok t) :
    t.status = s.status := by
  rw [eq_of_checked_eq_ok h, setPc_status]

theorem status_eq_of_writeRegister {reg : RegName} {v : Int} (h : writeRegister reg v s = .ok t) :
    t.status = s.status := by
  cases reg with
  | a => cases h; rfl
  | x => cases h; rfl
  | index k => rw [eq_of_checked_eq_ok h, writeIndex_status]

/-- A write keeps STATUS where its accessor does, since an error keeps all state. -/
theorem status_eq_of_committed {e : Except ErrorKind State}
    (hkept : ∀ {u}, e = .ok u → u.status = s.status) (h : committed s e = .next (r, t)) :
    t.status = s.status := by
  rcases committed_cases h with ⟨hok, _⟩ | ⟨_, _, _, rfl⟩
  · exact hkept hok
  · rfl

theorem status_eq_of_returned {e : Except ErrorKind Int} (h : returned s e = .next (r, t)) :
    t.status = s.status := by
  rw [(returned_cases h).1]

/-- Edits, loads and reads keep STATUS, whatever its value. -/
theorem status_eq_of_perform {op : HostOp} (hreset : op ≠ .reset) (hstep : op ≠ .step)
    (h : perform op s = .next (r, t)) : t.status = s.status := by
  cases op with
  | reset => exact absurd rfl hreset
  | step => exact absurd rfl hstep
  | loadProgram => exact status_eq_of_committed status_eq_of_loadProgram h
  | write => exact status_eq_of_committed status_eq_of_hostWrite h
  | writeRegister => exact status_eq_of_committed status_eq_of_writeRegister h
  | setProgramCounter => exact status_eq_of_committed status_eq_of_setProgramCounter h
  | read | readRegister => exact status_eq_of_returned h
  | inspectCmp | inspectPc | inspectStatus => cases h; rfl

/-- Settles O51: a step of a stopped core stays where it is, and the other operations write no STATUS. -/
theorem onlyResetRestartsAStoppedCore : Obligations.OnlyResetRestartsAStoppedCore := by
  intro op s t r hstopped hreset h
  by_cases hstep : op = .step
  · subst hstep
    rw [perform_step_of_not_running hstopped] at h
    cases h
    rfl
  · exact status_eq_of_perform hreset hstep h

end Sys2Proof.Machine
end

section
/-! The words of Wrap (41_arithmetic.md R110): each exact result has one, `alu_result` answers it under
the normative policy, and by it ADD, SUB, DIV and COMPARE are told in full, with the overflows of DIV and
of COMPARE. -/

namespace Sys2Proof.Machine

theorem isWrapOf_self {n : Int} (h : isWord n = true) : IsWrapOf n n :=
  ⟨isWord_iff.mp h, by simp⟩

theorem isWrapOf_wrapWord (n : Int) : IsWrapOf (wrapWord n) n := by
  obtain ⟨hword, hdvd⟩ := wrapWord_spec n
  exact ⟨isWord_iff.mp hword, hdvd⟩

/-- There is one such word: two words differ by less than `2^W`. -/
theorem IsWrapOf.unique {w w' n : Int} (h : IsWrapOf w n) (h' : IsWrapOf w' n) : w = w' := by
  obtain ⟨hrange, hdvd⟩ := h
  obtain ⟨hrange', hdvd'⟩ := h'
  have hdiff : (2 ^ Config.wordBits : Int) ∣ w - w' := by
    simpa using dvd_sub hdvd hdvd'
  have hlt : |w - w'| < 2 ^ Config.wordBits := by
    rw [word_modulus, abs_lt]
    omega
  exact sub_eq_zero.mp (Int.eq_zero_of_abs_lt_dvd hdiff hlt)

theorem aluResult_wrap (n : Int) : ∃ w, aluResult .wrap n = some w ∧ IsWrapOf w n := by
  cases h : isWord n with
  | true => exact ⟨n, aluResult_of_isWord h, isWrapOf_self h⟩
  | false => exact ⟨wrapWord n, by simp [aluResult, h], isWrapOf_wrapWord n⟩

theorem aluResult_saturate {n : Int} (h : isWord n = false) :
    aluResult .saturate n = some (saturateWord n) := by
  simp [aluResult, h]

/-- Settles O33: what Wrap answers is the one word of `IsWrapOf.unique`; past an end of the range the
comparison of `saturateWord` picks that end. -/
theorem aluResultFollowsThePolicy : Obligations.AluResultFollowsThePolicy := by
  intro n
  obtain ⟨w, hw, hwrap⟩ := aluResult_wrap n
  refine ⟨fun h p => aluResult_of_isWord (isWord_iff.mpr h), ⟨w, hw, hwrap, fun w' h' => h'.unique hwrap⟩,
    fun h => ?above, fun h => ?below⟩
  case above =>
    have hout : isWord n = false := isWord_false_iff.mpr (.inr h)
    exact ⟨by rw [aluResult_saturate hout, saturateWord, if_pos h], aluResult_eq_none.mpr ⟨rfl, hout⟩⟩
  case below =>
    have hout : isWord n = false := isWord_false_iff.mpr (.inl h)
    have hle : ¬n > maxW := by have := word_range; omega
    exact ⟨by rw [aluResult_saturate hout, saturateWord, if_neg hle], aluResult_eq_none.mpr ⟨rfl, hout⟩⟩

/-- An ALU instruction of the normative machine: the wrapped exact result in its register, and PC. -/
theorem exec_of_exactResult {i : Instr} {s : State} {a n : Int} (h : ExactResult s a i n)
    (ha : valid a = true) :
    ∃ w, IsWrapOf w n ∧ exec i s = .next (advance 2 (s.putResult i w)) := by
  obtain ⟨w, hw, hwrap⟩ := aluResult_wrap n
  exact ⟨w, hwrap, (exec_eq_execUnder i s).trans (execUnder_of_aluResult_eq_some h ha hw)⟩

/-- Settles O24: the sum is the exact result of an ADD at a valid address. -/
theorem addWritesTheWrappedSum : Obligations.AddWritesTheWrappedSum := fun a _ =>
  ⟨rfl, decode_encode_append (.add a) [], exec_of_exactResult .add, withDataAddress_invalid _⟩

/-- Settles O25: the difference is the exact result of a SUB at a valid address. -/
theorem subWritesTheWrappedDifference : Obligations.SubWritesTheWrappedDifference := fun a _ =>
  ⟨rfl, decode_encode_append (.sub a) [], exec_of_exactResult .sub, withDataAddress_invalid _⟩

/-- Settles O26: only a divisor other than 0 has an exact result. -/
theorem divWritesTheTruncatedQuotient : Obligations.DivWritesTheTruncatedQuotient := fun a _ =>
  ⟨rfl, decode_encode_append (.div a) [], fun ha h0 => exec_of_exactResult (.div h0) ha,
    divUnder_zero _, withDataAddress_invalid _⟩

/-- Settles O27: a COMPARE has the exact result of a SUB, and CMP for its register. -/
theorem compareWritesTheWrappedDifference : Obligations.CompareWritesTheWrappedDifference := fun a _ =>
  ⟨rfl, decode_encode_append (.compare a) [], exec_of_exactResult .compare, withDataAddress_invalid _⟩

/-- A divisor of magnitude 2 or more halves the dividend at least. -/
theorem isWord_truncDiv_of_two_le {n d : Int} (hn : isWord n = true) (hd : 2 ≤ d.natAbs) :
    isWord (truncDiv n d) = true := by
  have hrange := word_range
  have hhalf : (truncDiv n d).natAbs ≤ n.natAbs / 2 := by
    rw [truncDiv_eq_tdiv, Int.natAbs_tdiv]
    exact Nat.div_le_div_left hd (by decide)
  rw [isWord_iff] at hn ⊢
  omega

theorem truncDiv_one (n : Int) : truncDiv n 1 = n := by
  rw [truncDiv_eq_tdiv, Int.tdiv_one]

theorem truncDiv_neg_one (n : Int) : truncDiv n (-1) = -n := by
  rw [truncDiv_eq_tdiv, Int.tdiv_neg, Int.tdiv_one]

theorem isWord_neg_eq_false_iff {n : Int} (hn : isWord n = true) : isWord (-n) = false ↔ n = minW := by
  have hrange := word_range
  rw [isWord_iff] at hn
  rw [isWord_false_iff]
  omega

/-- -MIN_W, which is MAX_W + 1, wraps to MIN_W. -/
theorem isWrapOf_minW_neg_minW : IsWrapOf minW (-minW) := by
  have hrange := word_range
  have hmod := word_modulus
  exact ⟨by omega, -1, by omega⟩

/-- Settles O37: by the magnitude of the divisor, where 1 keeps the dividend and -1 negates it. -/
theorem onlyMinWordByMinusOneOverflowsInDiv : Obligations.OnlyMinWordByMinusOneOverflowsInDiv := by
  refine ⟨fun n d hn _ hd => ?overflow, fun a s ha hmin hdiv => ?wraps⟩
  case overflow =>
    have hcases : d = 1 ∨ d = -1 ∨ 2 ≤ d.natAbs := by omega
    rcases hcases with rfl | rfl | hd2
    · simp [truncDiv_one, hn]
    · simp [truncDiv_neg_one, isWord_neg_eq_false_iff hn]
    · have hne : d ≠ -1 := by rintro rfl; exact absurd hd2 (by decide)
      simp [isWord_truncDiv_of_two_le hn hd2, hne]
  case wraps =>
    have h0 : memRead s a ≠ 0 := by rw [hdiv]; decide
    obtain ⟨w, hwrap, hexec⟩ := exec_of_exactResult (.div h0) ha
    rw [← truncDiv_eq_tdiv, hdiv, truncDiv_neg_one, hmin] at hwrap
    obtain rfl : w = s.a := (hwrap.unique isWrapOf_minW_neg_minW).trans hmin.symm
    exact hexec

/-- Past the upper end of the range the wrapped difference of two words is negative. -/
theorem wrapped_difference_neg {w m n : Int} (hm : isWord m = true) (hn : isWord n = true)
    (hw : IsWrapOf w (m - n)) (h : maxW < m - n) : w < 0 := by
  have hrange := word_range
  have hmod := word_modulus
  rw [isWord_iff] at hm hn
  have hwrap : IsWrapOf (m - n - 2 ^ Config.wordBits) (m - n) := ⟨by omega, -1, by ring⟩
  rw [hw.unique hwrap]
  omega

/-- Past the lower end of the range the wrapped difference of two words is positive. -/
theorem wrapped_difference_pos {w m n : Int} (hm : isWord m = true) (hn : isWord n = true)
    (hw : IsWrapOf w (m - n)) (h : m - n < minW) : 0 < w := by
  have hrange := word_range
  have hmod := word_modulus
  rw [isWord_iff] at hm hn
  have hwrap : IsWrapOf (m - n + 2 ^ Config.wordBits) (m - n) := ⟨by omega, 1, by ring⟩
  rw [hw.unique hwrap]
  omega

/-- Settles O38: CMP is the difference itself where it is a word, and past an end of the range has the
sign of the other end. -/
theorem compareSignTellsTheOrderUnlessItOverflows :
    Obligations.CompareSignTellsTheOrderUnlessItOverflows := by
  intro a s t ha hA hM ht
  obtain ⟨w, hwrap, hexec⟩ := exec_of_exactResult (.compare (s := s)) ha
  obtain rfl : _ = t := Host.Outcome.next.inj (hexec.symm.trans ht)
  have hcmp : (advance 2 (s.putResult (.compare a) w)).cmp = w := rfl
  rw [hcmp]
  have hrange := word_range
  refine ⟨fun hin => ?inRange, fun hout => ?overflow⟩
  case inRange =>
    rw [hwrap.unique (isWrapOf_self hin)]
    omega
  case overflow =>
    rcases isWord_false_iff.mp hout with hlow | hhigh
    · have hpos := wrapped_difference_pos hA hM hwrap hlow
      omega
    · have hneg := wrapped_difference_neg hA hM hwrap hhigh
      omega

end Sys2Proof.Machine
end

section
/-! The bits of an instruction (30_encoding.md R70, R73; the layout is log 15): each half of its table
number is the two's-complement pattern of a word and reads back as that word, so that the decoder of
table bits sees the words of the encoding. -/

namespace Sys2Proof

open Machine

/-- A word's pattern is the number below `2^W` that equals the word modulo `2^W`. -/
theorem bitsOfWord_cast (v : Int) : (bitsOfWord v : Int) = v % 2 ^ Config.wordBits :=
  Int.toNat_of_nonneg (Int.emod_nonneg v (by positivity))

theorem bitsOfWord_lt (v : Int) : bitsOfWord v < 2 ^ Config.wordBits := by
  zify
  rw [bitsOfWord_cast]
  exact Int.emod_lt_of_pos v (by positivity)

theorem dvd_bitsOfWord_sub (v : Int) : (2 ^ Config.wordBits : Int) ∣ bitsOfWord v - v := by
  rw [bitsOfWord_cast]
  exact Int.dvd_emod_sub_self

theorem isWrapOf_wordOfBits (b : Nat) : IsWrapOf (wordOfBits b) b := by
  unfold wordOfBits
  split
  · exact isWrapOf_self (by assumption)
  · exact isWrapOf_wrapWord b

/-- A pattern reads as the word it is equal to modulo `2^W`. -/
theorem wordOfBits_eq {v : Int} {b : Nat} (hv : isWord v = true)
    (h : (2 ^ Config.wordBits : Int) ∣ b - v) : wordOfBits b = v :=
  (isWrapOf_wordOfBits b).unique ⟨isWord_iff.mp hv, dvd_sub_comm.mp h⟩

theorem wordOfBits_bitsOfWord {v : Int} (hv : isWord v = true) : wordOfBits (bitsOfWord v) = v :=
  wordOfBits_eq hv (dvd_bitsOfWord_sub v)

/-- The test for a word adds nothing: a number that is a word has no bit from `W` on. -/
theorem bitsAfterFirstWord_eq_div (w : Nat) : bitsAfterFirstWord w = w / 2 ^ Config.wordBits := by
  unfold bitsAfterFirstWord
  split
  · next h =>
    have hrange := word_range
    have hmod := word_modulus
    rw [isWord_iff] at h
    have hlt : w < 2 ^ Config.wordBits := by zify; omega
    exact (Nat.div_eq_of_lt hlt).symm
  · rfl

/-- The table number of two words holds these two words. -/
theorem tableWords_bitsOfWords {v a : Int} (hv : isWord v = true) (ha : isWord a = true) :
    tableWords (bitsOfWords [v, a]) = [v, a] := by
  have hbits : bitsOfWords [v, a] = bitsOfWord v + 2 ^ Config.wordBits * bitsOfWord a := rfl
  have hfirst : wordOfBits (bitsOfWords [v, a]) = v := by
    refine wordOfBits_eq hv ?_
    rw [hbits, Nat.cast_add, add_sub_right_comm]
    push_cast
    exact dvd_add (dvd_bitsOfWord_sub v) (Dvd.intro _ rfl)
  have hsecond : bitsAfterFirstWord (bitsOfWords [v, a]) = bitsOfWord a := by
    rw [bitsAfterFirstWord_eq_div, hbits, Nat.add_mul_div_left _ _ Nat.one_le_two_pow,
      Nat.div_eq_of_lt (bitsOfWord_lt v), Nat.zero_add]
  rw [tableWords, hfirst, hsecond, wordOfBits_bitsOfWord ha]

/-- The per-constructor shapes as one law. -/
theorem encodingShape (i : Instr) : Laws.EncodingShape.Statement i := by
  cases i with
  | halt => exact Laws.EncodingShape.halt
  | loadA a => exact Laws.EncodingShape.loadA a
  | storeA a => exact Laws.EncodingShape.storeA a
  | add a => exact Laws.EncodingShape.add a
  | sub a => exact Laws.EncodingShape.sub a
  | div a => exact Laws.EncodingShape.div a
  | jump a => exact Laws.EncodingShape.jump a
  | jumpZero a => exact Laws.EncodingShape.jumpZero a
  | jumpNeg a => exact Laws.EncodingShape.jumpNeg a
  | compare a => exact Laws.EncodingShape.compare a

theorem all_isWord_encode {i : Instr} (h : i.wf = true) : (encode i).all isWord = true := by
  obtain ⟨_, _, _, _, _, hwords⟩ := encodingShape i
  exact hwords h

/-- The table number of an instruction holds its words; after the one word of HALT comes a 0. -/
theorem tableWords_encodeTableWord {i : Instr} (h : i.wf = true) :
    ∃ rest, tableWords (encodeTableWord i) = encode i ++ rest := by
  by_cases hi : i = .halt
  · subst hi
    exact ⟨[0], tableWords_bitsOfWords isWord_zero isWord_zero⟩
  · obtain ⟨v, a, he⟩ := List.length_eq_two.mp (encode_length_of_ne_halt hi)
    have hwords := all_isWord_encode h
    simp only [he, List.all_cons, List.all_nil, Bool.and_true, Bool.and_eq_true] at hwords
    obtain ⟨hv, ha⟩ := hwords
    exact ⟨[], by rw [encodeTableWord, he, tableWords_bitsOfWords hv ha, List.append_nil]⟩

theorem decode_tableWords_encodeTableWord {i : Instr} (h : i.wf = true) :
    ∃ rest, decode (tableWords (encodeTableWord i)) = .instr i rest := by
  obtain ⟨rest, hwords⟩ := tableWords_encodeTableWord h
  exact ⟨rest, by rw [hwords, decode_encode_append]⟩

/-- Settles O6: the decoder of table bits sees the words of the encoding. -/
theorem decodeOfEncodeIsTheInstruction : Obligations.DecodeOfEncodeIsTheInstruction := by
  intro i hwf
  refine ⟨decode_encode_append i, fun nbits => ?_⟩
  obtain ⟨rest, hd⟩ := decode_tableWords_encodeTableWord hwf
  simp only [decodeTableWord, hd]

end Sys2Proof
end

section
/-! A program image (30_encoding.md R74, R77, R78): the image decoder takes one instruction's words off
the front and goes on behind them. -/

namespace Sys2Proof

theorem decodeImage_encode_append (i : Instr) (rest : List Int) :
    decodeImage (encode i ++ rest) = (decodeImage rest).map (i :: ·) := by
  cases i <;> rfl

theorem decodeImage_of_not_opcode {v : Int} (hv : ¬(0 ≤ v ∧ v ≤ 9)) (rest : List Int) :
    decodeImage (v :: rest) = none := by
  simp only [decodeImage, opcodeOf_eq_none.mpr hv]

theorem decodeImage_singleton {v : Int} (h1 : 1 ≤ v) (h9 : v ≤ 9) : decodeImage [v] = none := by
  cases ho : opcodeOf v with
  | none => exact decodeImage_of_not_opcode (opcodeOf_eq_none.mp ho) []
  | some o =>
    obtain rfl := eq_word_of_opcodeOf ho
    cases o with
    | halt => exact absurd h1 (by decide)
    | _ => rfl

/-- An image that decodes is empty or begins with the words of an instruction. -/
theorem eq_nil_or_encode_append_of_decodeImage {words : List Int} {program : List Instr}
    (h : decodeImage words = some program) : words = [] ∨ ∃ i rest, words = encode i ++ rest := by
  cases hd : decode words with
  | instr i rest => exact .inr ⟨i, rest, eq_encode_of_decode hd⟩
  | noOpcodeWord => exact .inl (of_decode_noOpcodeWord hd)
  | unknownOpcode v =>
    obtain ⟨⟨rest, rfl⟩, hv⟩ := of_decode_unknownOpcode hd
    cases (decodeImage_of_not_opcode hv rest).symm.trans h
  | noOperandWord =>
    obtain ⟨v, rfl, h1, h9⟩ := of_decode_noOperandWord hd
    cases (decodeImage_singleton h1 h9).symm.trans h

theorem decodeImage_eq_nil_iff {words : List Int} : decodeImage words = some [] ↔ words = [] := by
  refine ⟨fun h => ?_, fun h => by rw [h]; rfl⟩
  rcases eq_nil_or_encode_append_of_decodeImage h with hnil | ⟨i, rest, rfl⟩
  · exact hnil
  · simp [decodeImage_encode_append] at h

theorem decodeImage_eq_cons_iff {words : List Int} {i : Instr} {program : List Instr} :
    decodeImage words = some (i :: program) ↔
      ∃ rest, words = encode i ++ rest ∧ decodeImage rest = some program := by
  refine ⟨fun h => ?_, ?_⟩
  · rcases eq_nil_or_encode_append_of_decodeImage h with rfl | ⟨j, rest, rfl⟩
    · cases h
    · simp only [decodeImage_encode_append, Option.map_eq_some_iff, List.cons.injEq] at h
      obtain ⟨_, hrest, rfl, rfl⟩ := h
      exact ⟨rest, rfl, hrest⟩
  · rintro ⟨rest, rfl, hrest⟩
    rw [decodeImage_encode_append, hrest, Option.map_some]

/-- Settles O7, by induction on the program. -/
theorem imagesDecodeToExactlyTheirInstructions : Obligations.ImagesDecodeToExactlyTheirInstructions := by
  intro words program
  induction program generalizing words with
  | nil => exact decodeImage_eq_nil_iff
  | cons i program ih => simp [decodeImage_eq_cons_iff, ih]

end Sys2Proof
end

section
/-! An instruction placed at PC (log 15): where there is room for two words, both are written, the step
fetches them, and no other cell changes. -/

namespace Sys2Proof.Machine

variable {s : State}

theorem placeWords_pair {a v w : Int} (ha : valid a = true) (ha1 : valid (a + 1) = true) :
    placeWords a [v, w] s = memWrite (a + 1) w (memWrite a v s) := by
  simp only [placeWords, if_pos ha, if_pos ha1]

/-- Two words placed at PC are the words that the step fetches. -/
theorem fetchWords_placeWords (hm : Memory.wf s.mem = true) (hpc : valid s.pc = true)
    (hpc1 : valid (s.pc + 1) = true) (v w : Int) :
    fetchWords (placeWords s.pc [v, w] s) = [v, w] := by
  have hm1 : Memory.wf (memWrite s.pc v s).mem = true := wf_memWrite hm v hpc
  have hv : memRead (memWrite (s.pc + 1) w (memWrite s.pc v s)) s.pc = v := by
    rw [memRead_memWrite_of_ne hm1 w hpc1 hpc (by omega), memRead_memWrite_same hm]
  have hw : memRead (memWrite (s.pc + 1) w (memWrite s.pc v s)) (s.pc + 1) = w :=
    memRead_memWrite_same hm1 _ w
  rw [placeWords_pair hpc hpc1]
  simp only [fetchWords, memWrite_pc, if_pos hpc, if_pos hpc1, hv, hw]

theorem read_placeWords_of_ne (hm : Memory.wf s.mem = true) (hpc : valid s.pc = true)
    (hpc1 : valid (s.pc + 1) = true) (v w : Int) {b : Nat} (hb : b ≠ s.pc) (hb1 : b ≠ s.pc + 1) :
    Memory.read (placeWords s.pc [v, w] s).mem b = Memory.read s.mem b := by
  rw [placeWords_pair hpc hpc1, read_memWrite_of_ne (wf_memWrite hm v hpc) w hpc1 (by omega),
    read_memWrite_of_ne hm v hpc (by omega)]

/-- Settles O8: the two words of the table number are fetched and decode to the instruction. -/
theorem placedInstructionIsTheOneThatRuns : Obligations.PlacedInstructionIsTheOneThatRuns := by
  intro s i nbits hm hwf hroom t
  have hlt : s.pc + 1 < 4000 := hroom
  have hpc : valid s.pc = true := valid_iff.mpr (by omega)
  have hpc1 : valid (s.pc + 1) = true := valid_iff.mpr (by omega)
  obtain ⟨rest, hd⟩ := decode_tableWords_encodeTableWord hwf
  have hfetch : fetchWords t = tableWords (encodeTableWord i) := fetchWords_placeWords hm hpc hpc1 _ _
  have hi : InstrAtPc i t := instrAtPc_of_decode (hfetch ▸ hd)
  have hframe : t = { s with mem := t.mem } := by
    have ht : t = memWrite _ _ (memWrite _ _ s) := placeWords_pair hpc hpc1
    rw [ht]
    rfl
  exact ⟨hi, hframe, fun b => read_placeWords_of_ne hm hpc hpc1 _ _,
    fun hr => step_of_instrAtPc ((congrArg (·.status.run) hframe).trans hr) hi⟩

end Sys2Proof.Machine
end

section
/-! The canonical form of the memory (log 11): memories that read alike are the same list, by the
recursion of the form over the listed cells. -/

namespace Sys2Proof.Machine

/-- The lowest listed cell is no lower than an address that does not read as unlisted. -/
theorem head_le_of_read_ne_zero {lo a b : Nat} {w : Int} {n : Memory}
    (hn : Memory.wfFrom lo ((b, w) :: n) = true) (h : Memory.read ((b, w) :: n) a ≠ 0) : b ≤ a := by
  obtain ⟨_, hlt, hw, htail⟩ := wfFrom_cons.mp hn
  by_contra hab
  have hfrom : Memory.wfFrom b ((b, w) :: n) = true := wfFrom_cons.mpr ⟨le_rfl, hlt, hw, htail⟩
  exact h (read_below hfrom (by omega))

theorem read_head (a : Nat) (v : Int) (m : Memory) : Memory.read ((a, v) :: m) a = v :=
  if_pos rfl

/-- Two lists that begin at one address and read alike have tails that read alike. -/
theorem read_tail_eq {a : Nat} {v w : Int} {m n : Memory} (hm : Memory.wfFrom (a + 1) m = true)
    (hn : Memory.wfFrom (a + 1) n = true)
    (h : ∀ b, Memory.read ((a, v) :: m) b = Memory.read ((a, w) :: n) b) (b : Nat) :
    Memory.read m b = Memory.read n b := by
  by_cases hb : b = a
  · have hlt : b < a + 1 := by omega
    rw [read_below hm hlt, read_below hn hlt]
  · have hread := h b
    rwa [read_cons, read_cons, if_neg hb, if_neg hb] at hread

theorem eq_of_read_eq {lo lo' : Nat} {m n : Memory} (hm : Memory.wfFrom lo m = true)
    (hn : Memory.wfFrom lo' n = true) (h : ∀ a, Memory.read m a = Memory.read n a) : m = n := by
  induction m generalizing lo lo' n with
  | nil =>
    cases n with
    | nil => rfl
    | cons c n =>
      obtain ⟨b, w⟩ := c
      obtain ⟨_, _, hw, _⟩ := wfFrom_cons.mp hn
      exact absurd ((h b).trans (read_head b w n)).symm hw
  | cons c m ih =>
    obtain ⟨a, v⟩ := c
    obtain ⟨_, _, hv, hmtail⟩ := wfFrom_cons.mp hm
    cases n with
    | nil => exact absurd ((read_head a v m).symm.trans (h a)) hv
    | cons d n =>
      obtain ⟨b, w⟩ := d
      obtain ⟨_, _, hw, hntail⟩ := wfFrom_cons.mp hn
      have hba : b ≤ a := head_le_of_read_ne_zero hn (by rwa [← h a, read_head])
      have hab : a ≤ b := head_le_of_read_ne_zero hm (by rwa [h b, read_head])
      obtain rfl : a = b := le_antisymm hab hba
      obtain rfl : v = w := by simpa only [read_head] using h a
      rw [ih hmtail hntail (read_tail_eq hmtail hntail h)]

/-- Settles O21, by induction on the first list against the head of the second. -/
theorem memoriesThatReadAlikeAreEqual : Obligations.MemoriesThatReadAlikeAreEqual :=
  fun _ _ => eq_of_read_eq

end Sys2Proof.Machine
end

section
/-! The invariant (45_execution_loop.md R160): it holds after reset, each named update of a state keeps
it, and every step and every host operation is made of these updates. -/

namespace Sys2Proof.Machine

/-- Settles O3: every register and every cell is 0, which is a word. -/
theorem resetSatisfiesTheInvariant : Obligations.ResetSatisfiesTheInvariant where
  pc_le := Nat.zero_le _
  words := by
    refine ⟨isWord_zero, isWord_zero, fun k => ?_, isWord_zero, fun _ => isWord_zero⟩
    have hk : State.reset.index[k] = 0 := Vector.getElem_replicate k.isLt
    rw [hk]
    exact isWord_zero
  status := fun _ => ⟨rfl, rfl⟩
  mem_wf := wf_reset

section Updates

variable {s : State} (hs : s.Inv)
include hs

theorem State.Inv.isWord_memRead (a : Int) : isWord (memRead s a) = true := by
  obtain ⟨_, _, _, _, hmem⟩ := hs.words
  exact hmem a.toNat

theorem State.Inv.isWord_a : isWord s.a = true := hs.words.1

theorem State.Inv.setA {w : Int} (hw : isWord w = true) : (s.setA w).Inv := by
  obtain ⟨_, hwords⟩ := hs.words
  exact ⟨hs.pc_le, ⟨hw, hwords⟩, hs.status, hs.mem_wf⟩

theorem State.Inv.setX {w : Int} (hw : isWord w = true) : (s.setX w).Inv := by
  obtain ⟨ha, _, hwords⟩ := hs.words
  exact ⟨hs.pc_le, ⟨ha, hw, hwords⟩, hs.status, hs.mem_wf⟩

theorem State.Inv.setCmp {w : Int} (hw : isWord w = true) : (s.setCmp w).Inv := by
  obtain ⟨ha, hx, hindex, _, hmem⟩ := hs.words
  exact ⟨hs.pc_le, ⟨ha, hx, hindex, hw, hmem⟩, hs.status, hs.mem_wf⟩

theorem State.Inv.writeIndex (k : Int) {w : Int} (hw : isWord w = true) : (writeIndex k w s).Inv := by
  obtain ⟨ha, hx, hindex, hrest⟩ := hs.words
  refine ⟨hs.pc_le, ⟨ha, hx, fun j => ?_, hrest⟩, hs.status, hs.mem_wf⟩
  rw [writeIndex_index, Fin.getElem_fin, Vector.getElem_setIfInBounds]
  split
  · exact hw
  · exact hindex j

theorem State.Inv.setPc {p : Nat} (hp : p ≤ Config.memSize) : (s.setPc p).Inv :=
  ⟨hp, hs.words, hs.status, hs.mem_wf⟩

theorem State.Inv.setStatus {st : Status} (hst : (s.setStatus st).StatusClean) :
    (s.setStatus st).Inv :=
  ⟨hs.pc_le, hs.words, hst, hs.mem_wf⟩

theorem State.Inv.setMem {m : Memory} (hm : Memory.wf m = true)
    (hwords : ∀ b, isWord (Memory.read m b) = true) : (s.setMem m).Inv := by
  obtain ⟨ha, hx, hindex, hcmp, _⟩ := hs.words
  exact ⟨hs.pc_le, ⟨ha, hx, hindex, hcmp, hwords⟩, hs.status, hm⟩

theorem State.Inv.memWrite {a w : Int} (ha : valid a = true) (hw : isWord w = true) :
    (memWrite a w s).Inv := by
  obtain ⟨_, _, _, _, hmem⟩ := hs.words
  refine hs.setMem (wf_memWrite hs.mem_wf w ha) fun b => ?_
  rw [read_write hs.mem_wf]
  split
  · exact hw
  · exact hmem b

theorem State.Inv.load {words : List Int} (hfits : words.length ≤ Config.memSize)
    (hw : words.all isWord = true) : (s.setMem (Memory.load s.mem 0 words)).Inv := by
  obtain ⟨_, _, _, _, hmem⟩ := hs.words
  refine hs.setMem (wf_load hs.mem_wf (by omega)) fun b => ?_
  rw [read_load_zero hs.mem_wf hfits, List.getD_eq_getElem?_getD]
  cases hb : words[b]? with
  | none => exact hmem b
  | some v => exact List.all_eq_true.mp hw v (List.mem_of_getElem? hb)

theorem State.Inv.failedWith (kind : ErrorKind) (info : Int) : (s.failedWith kind info).Inv :=
  hs.setStatus fun hrun => absurd rfl hrun

theorem State.Inv.enterHalted (hr : s.status.run = .running) : (enterHalted s).Inv :=
  hs.setStatus fun _ => hs.status (by simp [hr])

theorem State.Inv.advance {n : Nat} (h : s.pc + n ≤ Config.memSize) : (advance n s).Inv :=
  hs.setPc h

end Updates

variable {v : Variant} {i : Instr} {s t : State}

theorem toNat_le_memSize_of_valid {a : Int} (h : valid a = true) : a.toNat ≤ Config.memSize := by
  rw [valid_iff] at h
  have hle : a.toNat ≤ 4000 := by omega
  exact hle

/-- The advance past the instruction at PC ends within the memory or at its end
(45_execution_loop.md R153). -/
theorem State.Inv.of_execOutcome (hs : s.Inv) (hr : s.status.run = .running) (hi : InstrAtPc i s)
    (h : ExecOutcome v i s t) : t.Inv := by
  have hpc := pc_add_length_le_of_instrAtPc hi
  cases h with
  | halted hi =>
    subst hi
    exact (hs.advance hpc).enterHalted hr
  | loaded a hi =>
    subst hi
    exact (hs.setA (hs.isWord_memRead a)).advance hpc
  | stored a hi ha =>
    subst hi
    exact (hs.memWrite ha hs.isWord_a).advance hpc
  | computed a w hi _ hw =>
    rcases hi with rfl | rfl | rfl <;> exact (hs.setA hw).advance hpc
  | compared a w hi _ hw =>
    subst hi
    exact (hs.setCmp hw).advance hpc
  | jumped a _ ha => exact hs.setPc (toNat_le_memSize_of_valid ha)
  | passed a hi => rcases hi with ⟨rfl, _⟩ | ⟨rfl, _⟩ <;> exact hs.advance hpc
  | outOfRange | dividedByZero | overflowed => exact hs.failedWith _ _

theorem State.Inv.of_stepOutcome (hs : s.Inv) (h : StepOutcome v s t) : t.Inv := by
  cases h with
  | stopped => exact hs
  | executed i _ hr hi ho => exact hs.of_execOutcome hr hi ho
  | unknownOpcode | noOpcodeWord | noOperandWord => exact hs.failedWith _ _

/-- Settles O19: each outcome of a step is a row of named updates that keep the invariant. -/
theorem everyStepKeepsTheInvariant : Obligations.EveryStepKeepsTheInvariant :=
  ⟨fun _ _ hs h => hs.of_stepOutcome (outcome_of_step h),
    fun _ _ _ hs h => hs.of_stepOutcome (stepOutcome_of_stepUnder h)⟩

/-- The checked write accessors in full: an answer has passed the check. -/
theorem of_checked_eq_ok {c : Prop} [Decidable c] {u : State} {kind : ErrorKind}
    (h : (if c then .ok u else .error kind : Except ErrorKind State) = .ok t) : c ∧ u = t := by
  refine ⟨?_, (eq_of_checked_eq_ok h).symm⟩
  by_contra hc
  rw [if_neg hc] at h
  cases h

theorem State.Inv.of_loadProgram (hs : s.Inv) {words : List Int} (hw : words.all isWord = true)
    (h : loadProgram words s = .ok t) : t.Inv := by
  obtain ⟨hfits, rfl⟩ := of_checked_eq_ok h
  exact hs.load hfits hw

theorem State.Inv.of_hostWrite (hs : s.Inv) {a w : Int} (hw : isWord w = true)
    (h : hostWrite a w s = .ok t) : t.Inv := by
  obtain ⟨ha, rfl⟩ := of_checked_eq_ok h
  exact hs.memWrite ha hw

theorem State.Inv.of_setProgramCounter (hs : s.Inv) {a : Int} (h : setProgramCounter a s = .ok t) :
    t.Inv := by
  obtain ⟨ha, rfl⟩ := of_checked_eq_ok h
  exact hs.setPc (toNat_le_memSize_of_valid ha)

theorem State.Inv.of_writeRegister (hs : s.Inv) {reg : RegName} {w : Int} (hw : isWord w = true)
    (h : writeRegister reg w s = .ok t) : t.Inv := by
  cases reg with
  | a =>
    cases h
    exact hs.setA hw
  | x =>
    cases h
    exact hs.setX hw
  | index k =>
    obtain ⟨_, rfl⟩ := of_checked_eq_ok h
    exact hs.writeIndex k hw

/-- A write keeps the invariant where its accessor does, since an error keeps all state. -/
theorem State.Inv.of_committed (hs : s.Inv) {e : Except ErrorKind State} {r : HostResult}
    (hok : e = .ok t → t.Inv) (h : committed s e = .next (r, t)) : t.Inv := by
  rcases committed_cases h with ⟨he, _⟩ | ⟨_, _, _, rfl⟩
  · exact hok he
  · exact hs

theorem State.Inv.of_returned (hs : s.Inv) {e : Except ErrorKind Int} {r : HostResult}
    (h : returned s e = .next (r, t)) : t.Inv := by
  rwa [(returned_cases h).1]

/-- Settles O20, operation by operation: a read leaves its state, and each write accessor that answers
made updates that keep the invariant. -/
theorem everyHostOperationKeepsTheInvariant : Obligations.EveryHostOperationKeepsTheInvariant := by
  intro op s t r hs hwf h
  cases op with
  | reset =>
    cases h
    exact resetSatisfiesTheInvariant
  | step => exact hs.of_stepOutcome (outcome_of_step (responded_cases h).1)
  | loadProgram => exact hs.of_committed (hs.of_loadProgram hwf) h
  | write => exact hs.of_committed (hs.of_hostWrite hwf) h
  | writeRegister => exact hs.of_committed (hs.of_writeRegister hwf) h
  | setProgramCounter => exact hs.of_committed hs.of_setProgramCounter h
  | read | readRegister => exact hs.of_returned h
  | inspectCmp | inspectPc | inspectStatus =>
    cases h
    exact hs

end Sys2Proof.Machine
end
